-- ==== Sys2Proof/Word.lean ====
section
/-! DEFINITION. The widths the spec names (00_scope.md R8, R10): bytes of the Frame Buffer, 16-bit codes and checksums, 32-bit queue and operation words. -/

namespace Sys2Proof

/-- A byte of the Frame Buffer (10_state.md R21), and an operand field of an operation word (30_encoding.md R81). -/
abbrev Byte := BitVec 8

/-- A 16-bit value: an indicator code (10_state.md R28) or a checksum (R25). -/
abbrev Half := BitVec 16

/-- A 32-bit value: a queue word (10_state.md R31), a bit length (R25), an operation word (30_encoding.md R80). -/
abbrev Word := BitVec 32

end Sys2Proof
end

