-- ==== Sys2Proof/Config.lean ====
section
/-! DEFINITION. The implementation parameters (00_scope.md R8) and the model's free values: constants with no body, so that no proof can see what they are. -/

namespace Sys2Proof

/-- The OPEN parameters of 00_scope.md R8. They are read-only to the engine and fixed for a run (10_state.md R29). -/
structure Config where
  /-- STATION_MAC: six bytes in the order they are written and transmitted (42_classifier.md R131). -/
  stationMac     : Vector Byte 6
  /-- OVERSIZE_SLACK, at least 1 (41_receiver.md R117). -/
  oversizeSlack  : Nat
  /-- STATUS_IDLE_WAIT. -/
  statusIdleWait : Half
  /-- STATUS_FRAME_RX. -/
  statusFrameRx  : Half
  /-- STATUS_IDLE_DONE. -/
  statusIdleDone : Half
  /-- SETTLE_DELAY, in abstract ticks (45_interface.md R176). -/
  settleDelay    : Nat
  /-- INIT_BUF: the Frame Buffer's content at reset, any bytes (10_state.md R21). -/
  initBuf        : Vector Byte 128
  deriving DecidableEq, Repr, Inhabited

/-- CAP: bytes of the Frame Buffer, fixed at 128 (00_scope.md R8). -/
abbrev Config.cap : Nat := 128

/-- PAD: leading pad bytes, fixed at 2 (00_scope.md R8). -/
abbrev Config.pad : Nat := 2

/-- The bounds 00_scope.md R8 sets: the slack is at least 1 and the three status codes are pairwise distinct. -/
abbrev Config.Valid (c : Config) : Prop :=
  1 ≤ c.oversizeSlack ∧ c.statusIdleWait ≠ c.statusFrameRx ∧
    c.statusIdleWait ≠ c.statusIdleDone ∧ c.statusFrameRx ≠ c.statusIdleDone

/-- What an environment does between two operations (20_memory.md R62): the words it appends at the tail of the receive queue, and the `rxReady` it then presents (10_state.md R31). -/
structure EnvMove where
  /-- Words appended at the tail of `rxq`, oldest first. -/
  words : List Word
  /-- The `rxReady` presented from then on. -/
  ready : Bool
  deriving DecidableEq, Repr, Inhabited

/-- A free value: the configuration a builder drew. Nothing constrains it (log 1). -/
opaque Config.draw : Config

/-- The configuration of the machine after reset: the drawn one where it keeps the bounds of 00_scope.md R8, and otherwise the drawn one with only the bounded parameters replaced, so that it ranges over exactly the valid configurations (log 1). -/
def Config.machine : Config :=
  if Config.draw.Valid then Config.draw
  else { Config.draw with oversizeSlack := 1, statusIdleWait := 0, statusFrameRx := 1, statusIdleDone := 2 }

/-- A free value: what the environment will do in a run from reset (log 5). -/
opaque Config.arrivals : List EnvMove

/-- A free value for each draw: what `txSent` holds where its 28 bits cannot hold the count (log 11). -/
opaque Config.freeTxSent : Nat → BitVec 28

end Sys2Proof
end

