-- ==== Sys2Proof/Syntax.lean ====
section
/-! DEFINITION. The operations of the engine, one constructor per row of spec/opcode_table.json (30_encoding.md R82), and the two pseudo-operations (R86). -/

namespace Sys2Proof

/-- The status selector of SETIND: `a` = 0, 1, 2 (30_encoding.md R85, 45_interface.md R175). -/
inductive Selector where
  /-- `a` = 0, STATUS_IDLE_WAIT. -/
  | idleWait
  /-- `a` = 1, STATUS_FRAME_RX. -/
  | frameRx
  /-- `a` = 2, STATUS_IDLE_DONE. -/
  | idleDone
  deriving DecidableEq, Repr

/-- The 15 operations (30_encoding.md R82). -/
inductive Instr where
  /-- RXRDY, 45_interface.md R171. -/
  | rxrdy
  /-- RXPOP, 45_interface.md R172. -/
  | rxpop
  /-- TXANN, 45_interface.md R173. -/
  | txann
  /-- TXPUSH, 45_interface.md R174. -/
  | txpush
  /-- SETIND, 45_interface.md R175. -/
  | setind (sel : Selector)
  /-- HOLD, 45_interface.md R176. -/
  | hold
  /-- CSUM, 40_checksum.md R100: start offset and length in bytes. -/
  | csum (off len : Byte)
  /-- RECV, 41_receiver.md R110. -/
  | recv
  /-- CLASS, 42_classifier.md R130. -/
  | classify
  /-- SWAPMAC, 43_mutator.md R141. -/
  | swapmac
  /-- SWAPIP, 43_mutator.md R142. -/
  | swapip
  /-- SETTYPE, 43_mutator.md R143. -/
  | settype
  /-- IPCSUM, 43_mutator.md R144. -/
  | ipcsum
  /-- ICMPCSUM, 43_mutator.md R145. -/
  | icmpcsum
  /-- XMIT, 44_transmitter.md R160. -/
  | xmit
  deriving DecidableEq, Repr

/-- The two pseudo-operations, names of fixed sequences with no encoding of their own (30_encoding.md R86). -/
inductive Pseudo where
  /-- MUTATE, 43_mutator.md R146. -/
  | mutate
  /-- SETTLE, 46_control_loop.md R195. -/
  | settle
  deriving DecidableEq, Repr

end Sys2Proof
end

