-- ==== Sys2Proof/WellFormed.lean ====
section
/-! DEFINITION. Which operations are legal (30_encoding.md R83). The one condition the syntax does not carry by itself is CSUM's range. -/

namespace Sys2Proof

/-- Legality of an operation: for CSUM `a + b <= 128`; the selector of SETIND is one of three by its type, and the other operations have no operand (30_encoding.md R83). -/
def Instr.wf : Instr → Bool
  | .csum off len => decide (off.toNat + len.toNat ≤ 128)
  | .rxrdy | .rxpop | .txann | .txpush | .setind _ | .hold | .recv | .classify => true
  | .swapmac | .swapip | .settype | .ipcsum | .icmpcsum | .xmit => true

end Sys2Proof
end

