-- ==== Sys2Proof/Decode.lean ====
section
/-! DEFINITION. Decoding, total on 32-bit operation words and rejecting by name, and the encoder (30_encoding.md R80 to R84). -/

namespace Sys2Proof

/-- Why a word spells no operation (30_encoding.md R83). -/
inductive DecodeError where
  /-- `z`, bits 31 to 24, is not zero (R80). -/
  | reservedBitsSet
  /-- `op` is none of the 15 values of R82 (R84). -/
  | unassignedOpcode
  /-- An operand field that R83 requires to be zero is not. -/
  | operandNotZero
  /-- SETIND with `a` other than 0, 1 or 2. -/
  | selectorOutOfRange
  /-- CSUM with `a + b > 128`. -/
  | rangeBeyondBuffer
  deriving DecidableEq, Repr

/-- The decoder's answer: an operation, or the reason there is none. -/
inductive DecodeResult where
  | ok  (i : Instr)
  | bad (e : DecodeError)
  deriving DecidableEq, Repr

/-- The opcode field `op`, bits 7 to 0 (30_encoding.md R80). -/
def fieldOp (w : Word) : Byte := w.extractLsb' 0 8

/-- The first operand field `a`, bits 15 to 8 (R80). -/
def fieldA (w : Word) : Byte := w.extractLsb' 8 8

/-- The second operand field `b`, bits 23 to 16 (R80). -/
def fieldB (w : Word) : Byte := w.extractLsb' 16 8

/-- The field `z`, bits 31 to 24, which must be zero (R80). -/
def fieldZ (w : Word) : Byte := w.extractLsb' 24 8

/-- The selector a SETIND operand names (30_encoding.md R85). -/
def selectorOf (a : Byte) : Option Selector :=
  match a with
  | 0x00#8 => some .idleWait
  | 0x01#8 => some .frameRx
  | 0x02#8 => some .idleDone
  | _ => none

/-- The operation with no operand that an opcode names (30_encoding.md R82). -/
def plainOf (op : Byte) : Option Instr :=
  match op with
  | 0x01#8 => some .rxrdy
  | 0x02#8 => some .rxpop
  | 0x03#8 => some .txann
  | 0x04#8 => some .txpush
  | 0x06#8 => some .hold
  | 0x20#8 => some .recv
  | 0x30#8 => some .classify
  | 0x40#8 => some .swapmac
  | 0x41#8 => some .swapip
  | 0x42#8 => some .settype
  | 0x43#8 => some .ipcsum
  | 0x44#8 => some .icmpcsum
  | 0x50#8 => some .xmit
  | _ => none

/-- SETIND: `b` is zero and `a` is a selector (30_encoding.md R83). -/
def decodeSetind (w : Word) : DecodeResult :=
  if fieldB w ≠ 0 then .bad .operandNotZero
  else match selectorOf (fieldA w) with
    | some sel => .ok (.setind sel)
    | none => .bad .selectorOutOfRange

/-- CSUM: `a + b <= 128` (30_encoding.md R83). -/
def decodeCsum (w : Word) : DecodeResult :=
  if (fieldA w).toNat + (fieldB w).toNat ≤ 128 then .ok (.csum (fieldA w) (fieldB w))
  else .bad .rangeBeyondBuffer

/-- Every other operation: `a = b = 0` (30_encoding.md R83). -/
def decodePlain (w : Word) : DecodeResult :=
  match plainOf (fieldOp w) with
  | none => .bad .unassignedOpcode
  | some i => if fieldA w = 0 ∧ fieldB w = 0 then .ok i else .bad .operandNotZero

/-- The decoder (30_encoding.md R80 to R84). -/
def decode (w : Word) : DecodeResult :=
  if fieldZ w ≠ 0 then .bad .reservedBitsSet
  else if fieldOp w = 0x05 then decodeSetind w
  else if fieldOp w = 0x10 then decodeCsum w
  else decodePlain w

/-- The instruction that a row of spec/opcode_table.json spells, its bits given as a number. Operation words are single 32-bit words with no byte order of their own (log 16). -/
def decodeTableWord (nbits w : Nat) : Option Instr :=
  if w % 2 ^ nbits < 2 ^ 32 then
    match decode (BitVec.ofNat 32 (w % 2 ^ nbits)) with
    | .ok i => some i
    | .bad _ => none
  else none

/-- The operand of a SETIND selector (30_encoding.md R85). -/
def Selector.code : Selector → Byte
  | .idleWait => 0
  | .frameRx => 1
  | .idleDone => 2

/-- The opcode number (30_encoding.md R82). -/
def Instr.opcode : Instr → Byte
  | .rxrdy => 0x01
  | .rxpop => 0x02
  | .txann => 0x03
  | .txpush => 0x04
  | .setind _ => 0x05
  | .hold => 0x06
  | .csum _ _ => 0x10
  | .recv => 0x20
  | .classify => 0x30
  | .swapmac => 0x40
  | .swapip => 0x41
  | .settype => 0x42
  | .ipcsum => 0x43
  | .icmpcsum => 0x44
  | .xmit => 0x50

/-- The first operand field: CSUM's offset and SETIND's selector, else zero (30_encoding.md R81). -/
def Instr.operandA : Instr → Byte
  | .setind sel => sel.code
  | .csum off _ => off
  | .rxrdy | .rxpop | .txann | .txpush | .hold | .recv | .classify => 0
  | .swapmac | .swapip | .settype | .ipcsum | .icmpcsum | .xmit => 0

/-- The second operand field: CSUM's length, else zero (30_encoding.md R81). -/
def Instr.operandB : Instr → Byte
  | .csum _ len => len
  | .rxrdy | .rxpop | .txann | .txpush | .setind _ | .hold | .recv | .classify => 0
  | .swapmac | .swapip | .settype | .ipcsum | .icmpcsum | .xmit => 0

/-- The encoder: `z ++ b ++ a ++ op` with `z` zero (30_encoding.md R80). -/
def encode (i : Instr) : Word := 0#8 ++ i.operandB ++ i.operandA ++ i.opcode

/-- The sequence a pseudo-operation expands to (30_encoding.md R86). -/
def Pseudo.expand : Pseudo → List Instr
  | .mutate => [.swapmac, .swapip, .settype, .ipcsum, .icmpcsum]
  | .settle => [.hold, .setind .idleDone]

end Sys2Proof
end

