-- ==== Sys2Proof/Machine/State.lean ====
section
/-! DEFINITION. Everything the spec gives the machine, as plain data (10_state.md R20 to R36), the reasons a step can stop, and the machine after reset. -/

namespace Sys2Proof.Machine

/-- Why the machine stops with no next state. -/
inductive Fault where
  /-- Raised by `step`: a fault flag is set, and a halted engine takes no further step (60_exceptions.md R213, 93_implementation_defined.md U18). Safe: the spec says nothing of the engine from there. -/
  | halted
  /-- Raised by ICMPCSUM and XMIT where `r.rxLen` is above 128: a breach of the bound of 20_memory.md R51, which the rules never reach. Safe. -/
  | offsetOutOfBuffer
  deriving DecidableEq, Repr

/-- Why an operation has no meaning. -/
inductive Refusal where
  /-- Raised by `exec` for an instruction not modelled yet. Safe. -/
  | notModelled (mnemonic : String)
  /-- Raised by `step` for a word that spells no operation (30_encoding.md R83). Safe. -/
  | illegalWord (e : DecodeError)
  /-- Raised by CSUM for operands that no legal word has, `off + len > 128` (30_encoding.md R83, 40_checksum.md R100). Safe. -/
  | csumBeyondBuffer (off len : Byte)
  deriving DecidableEq, Repr

/-- The Control Loop states, the engine's program counter (10_state.md R23). -/
inductive LoopState where
  | wait
  | classify
  | process
  | transmit
  | settle
  deriving DecidableEq, Repr

/-- The receive outcome `r.rxOut` (30_encoding.md R88). -/
inductive RxOutcome where
  | noFrame
  | frame
  | oversize
  deriving DecidableEq, Repr

/-- The classification `r.cls` (30_encoding.md R88). -/
inductive FrameClass where
  | echoRequest
  | notForUs
  | notIpv4
  | notIcmp
  | notEchoRequest
  deriving DecidableEq, Repr

/-- The events of the trace (10_state.md R33). -/
inductive Event where
  | rxReady (b : Bool)
  | rxPop (w : Word)
  | txAnnounce (bitLen : Word)
  | txPush (w : Word)
  | setIndicator (code : Half)
  | hold (ticks : Nat)
  deriving DecidableEq, Repr

/-- A fault that an operation raises, with the info it records (60_exceptions.md R212). -/
inductive EngineFault where
  /-- A pop of the empty receive queue, raised by RXPOP, also inside RECV. -/
  | rxUnderflow
  /-- An ICMP length below zero, raised by ICMPCSUM: records `r.rxLen`. -/
  | icmpShort (rxLen : Byte)
  /-- Words pushed other than announced, raised by XMIT: records `txExpect` and `txSent`. -/
  | txMismatch (txExpect txSent : BitVec 28)
  deriving DecidableEq, Repr

/-- The sticky fault flags, each with the info recorded when it was set (10_state.md R30, 60_exceptions.md R212). -/
structure FaultFlags where
  rxUnderflow : Bool
  /-- `none` where the flag is clear; `some` of the recorded `r.rxLen` where it is set. -/
  icmpShort   : Option Byte
  /-- `none` where the flag is clear; `some` of the recorded `(txExpect, txSent)` where it is set. -/
  txMismatch  : Option (BitVec 28 × BitVec 28)
  deriving DecidableEq, Repr

/-- The engine's state (10_state.md R20), the environment's queues (R31), the trace (R33), the configuration of the run (00_scope.md R8, log 1), and the model's own fields `pending`, `arrivals` and `draws`. -/
structure State where
  /-- The configuration, fixed for a run and written by nothing (10_state.md R29, log 1). -/
  cfg        : Config
  /-- The Frame Buffer (10_state.md R21): the bytes that differ from INIT_BUF, in canonical form. -/
  mem        : List Host.Cell
  /-- The Control Loop state (10_state.md R23). -/
  state      : LoopState
  /-- Model's own: the operation words the Control Loop's current step has yet to issue (log 6). -/
  pending    : List Word
  /-- `r.ready` (10_state.md R25). -/
  ready      : Bool
  /-- `r.w`. -/
  w          : Word
  /-- `r.bitLen`. -/
  bitLen     : Word
  /-- `r.byteCount`. -/
  byteCount  : BitVec 30
  /-- `r.wordCount`. -/
  wordCount  : BitVec 28
  /-- `r.rxLen`. -/
  rxLen      : Byte
  /-- `r.rxOut`. -/
  rxOut      : RxOutcome
  /-- `r.cls`. -/
  cls        : FrameClass
  /-- `r.csum`. -/
  csum       : Half
  /-- The status indicator output (10_state.md R28). -/
  ind        : Half
  /-- Ticks left in the current settle delay (10_state.md R35). -/
  settleLeft : Nat
  /-- Payload words the last announced frame requires (10_state.md R32). -/
  txExpect   : BitVec 28
  /-- Words pushed since that announcement (10_state.md R32). -/
  txSent     : BitVec 28
  /-- The sticky fault flags (10_state.md R30). -/
  fault      : FaultFlags
  /-- The receive queue, head first, the environment's (10_state.md R31). -/
  rxq        : List Word
  /-- What the environment presents to RXRDY (10_state.md R31). -/
  rxReady    : Bool
  /-- Model's own: the environment's moves still to come (log 4). -/
  arrivals   : List EnvMove
  /-- The words the transmit queue has accepted, oldest first (20_memory.md R50, log 13). -/
  txq        : List Word
  /-- The trace, oldest event first (10_state.md R33). -/
  trace      : List Event
  /-- Model's own: how many free values have been drawn (log 11). -/
  draws      : Nat
  deriving DecidableEq, Repr

/-- The machine right after reset (10_state.md R36, 70_reset_and_hazards.md R240, R241). The working registers, which the spec leaves unspecified, are zero (log 2); the environment's queue is empty (log 3) and its later moves are free (log 5). -/
def State.reset : State where
  cfg := Config.machine
  mem := []
  state := .wait
  pending := [encode .recv]
  ready := false
  w := 0
  bitLen := 0
  byteCount := 0
  wordCount := 0
  rxLen := 0
  rxOut := .noFrame
  cls := .echoRequest
  csum := 0
  ind := Config.machine.statusIdleWait
  settleLeft := 0
  txExpect := 0
  txSent := 0
  fault := { rxUnderflow := false, icmpShort := none, txMismatch := none }
  rxq := []
  rxReady := false
  arrivals := Config.arrivals
  txq := []
  trace := []
  draws := 0

end Sys2Proof.Machine
end

