-- ==== Sys2Proof/Machine/Operands.lean ====
section
/-! DEFINITION. The forms in which operations read their operands: byte order between words and bytes, the length arithmetic, the status selector, and the codes of the enumerated registers. -/

namespace Sys2Proof.Machine

/-- `ceil(a/b)` on natural numbers (00_scope.md R10). -/
def ceilDiv (a b : Nat) : Nat := (a + b - 1) / b

/-- `ceil(bitLen/8)` for a length word: at most 2^29, exact in 30 bits (41_receiver.md R112). -/
def byteCountOf (bitLen : Word) : BitVec 30 := BitVec.ofNat 30 (ceilDiv bitLen.toNat 8)

/-- `ceil(byteCount/4)`: at most 2^27, exact in 28 bits (41_receiver.md R112). -/
def wordCountOf (byteCount : BitVec 30) : BitVec 28 := BitVec.ofNat 28 (ceilDiv byteCount.toNat 4)

/-- `ceil(ceil(bitLen/8)/4)`: the payload words a frame of that bit length needs (10_state.md R32). -/
def payloadWords (bitLen : Word) : BitVec 28 := wordCountOf (byteCountOf bitLen)

/-- Byte `j` of a queue word, `(w >> 8j) & 0xFF` (20_memory.md R57). -/
def wordByte (w : Word) (j : Nat) : Byte := w.extractLsb' (8 * j) 8

/-- The four bytes of a queue word, in buffer order (20_memory.md R57). -/
def wordBytes (w : Word) : List Byte := [wordByte w 0, wordByte w 1, wordByte w 2, wordByte w 3]

/-- `b0 | b1 << 8 | b2 << 16 | b3 << 24` (20_memory.md R58). -/
def wordOfBytes (b0 b1 b2 b3 : Byte) : Word := b3 ++ b2 ++ b1 ++ b0

/-- The 16-bit big-endian value of two bytes (00_scope.md R13, 20_memory.md R56). -/
def be16 (hi lo : Byte) : Half := hi ++ lo

/-- The two bytes of a 16-bit value, high byte first (40_checksum.md R104). -/
def halfBytes (c : Half) : List Byte := [c.extractLsb' 8 8, c.extractLsb' 0 8]

/-- The status code a selector names (45_interface.md R175). -/
def statusCode (c : Config) : Selector → Half
  | .idleWait => c.statusIdleWait
  | .frameRx => c.statusFrameRx
  | .idleDone => c.statusIdleDone

/-- The encoding of `state` (10_state.md R23). -/
def LoopState.code : LoopState → BitVec 3
  | .wait => 0
  | .classify => 1
  | .process => 2
  | .transmit => 3
  | .settle => 4

/-- The encoding of `r.rxOut` (30_encoding.md R88). -/
def RxOutcome.code : RxOutcome → BitVec 2
  | .noFrame => 0
  | .frame => 1
  | .oversize => 2

/-- The encoding of `r.cls` (30_encoding.md R88). -/
def FrameClass.code : FrameClass → BitVec 3
  | .echoRequest => 0
  | .notForUs => 1
  | .notIpv4 => 2
  | .notIcmp => 3
  | .notEchoRequest => 4

/-- The fault codes (60_exceptions.md R212). -/
def EngineFault.code : EngineFault → Nat
  | .rxUnderflow => 1
  | .icmpShort _ => 2
  | .txMismatch _ _ => 3

end Sys2Proof.Machine
end

