-- ==== Sys2Proof/Machine/Flags.lean ====
section
/-! DEFINITION. The engine has no flags and no condition codes; the decisions the Control Loop branches on are `r.rxOut` and `r.cls` (10_state.md R27). Here is how each is computed, and what it means for a fault flag to be set (R30). -/

namespace Sys2Proof.Machine

/-- The oversize guard: the outcome of a received frame (41_receiver.md R117). -/
def frameOutcome (c : Config) (byteCount : BitVec 30) : RxOutcome :=
  if byteCount.toNat > Config.cap + c.oversizeSlack then .oversize else .frame

/-- The decision of CLASS over the bytes it reads, the first failing check winning (42_classifier.md R130 to R135). -/
def classOf (c : Config) (dst : List Byte) (etherType : Half) (proto icmpType : Byte) : FrameClass :=
  if dst ≠ c.stationMac.toList then .notForUs
  else if etherType ≠ 0x0800 then .notIpv4
  else if proto ≠ 1 then .notIcmp
  else if icmpType ≠ 8 then .notEchoRequest
  else .echoRequest

/-- A fault flag is set (60_exceptions.md R213). -/
def FaultFlags.any (f : FaultFlags) : Bool := f.rxUnderflow || f.icmpShort.isSome || f.txMismatch.isSome

/-- Add the flag of a raised fault to the set, with the info it records; no flag is cleared (10_state.md R30, 60_exceptions.md R212). -/
def FaultFlags.add (f : FaultFlags) : EngineFault → FaultFlags
  | .rxUnderflow => { f with rxUnderflow := true }
  | .icmpShort n => { f with icmpShort := some n }
  | .txMismatch e n => { f with txMismatch := some (e, n) }

end Sys2Proof.Machine
end

