-- ==== Sys2Proof/Machine/Ops.lean ====
section
/-! DEFINITION. The named operations over the Frame Buffer, the queues and the trace, and the raising of a fault, once each; the meanings are built from these. -/

namespace Sys2Proof.Machine

/-! ## The Frame Buffer (20_memory.md R52) -/

/-- What an unlisted offset reads as: INIT_BUF (10_state.md R21). Offsets from 128 on are no bytes of the buffer; no meaning reads one (log 10, log 23). -/
def initByte (c : Config) (a : Nat) : Byte := c.initBuf.toList.getD a 0

/-- The byte a list of cells holds at an offset, where it lists one. -/
def Memory.find (a : Nat) : List Host.Cell → Option Byte
  | [] => none
  | (b, x) :: m => if a = b then some x else Memory.find a m

/-- List a byte at an offset, in the place the rising order gives it. -/
def Memory.put (a : Nat) (v : Byte) : List Host.Cell → List Host.Cell
  | [] => [(a, v)]
  | (b, x) :: m =>
    if a < b then (a, v) :: (b, x) :: m
    else if a = b then (a, v) :: m
    else (b, x) :: Memory.put a v m

/-- Drop every entry of an offset. -/
def Memory.erase (a : Nat) : List Host.Cell → List Host.Cell
  | [] => []
  | (b, x) :: m => if a = b then Memory.erase a m else (b, x) :: Memory.erase a m

/-- The canonical form: offsets strictly rising, all inside the buffer, and no entry equal to what an unlisted offset reads as. -/
abbrev Memory.wf (c : Config) (m : List Host.Cell) : Prop :=
  m.Pairwise (fun p q => p.1 < q.1) ∧ ∀ p ∈ m, p.1 < Config.cap ∧ p.2 ≠ initByte c p.1

/-- `buf[a]` (20_memory.md R52). -/
def State.readByte (s : State) (a : Nat) : Byte := (Memory.find a s.mem).getD (initByte s.cfg a)

/-- `buf[a] <- v` (20_memory.md R52): writing what an unlisted offset reads as drops the entry. -/
def State.writeByte (s : State) (a : Nat) (v : Byte) : State :=
  { s with mem := if v = initByte s.cfg a then Memory.erase a s.mem else Memory.put a v s.mem }

/-- `MemRead(a, n)`: the bytes at offsets `a` to `a + n - 1` (00_scope.md R12). -/
def State.readBytes (s : State) : Nat → Nat → List Byte
  | _, 0 => []
  | a, n + 1 => s.readByte a :: s.readBytes (a + 1) n

/-- Write a list of bytes from an offset on, in order (00_scope.md R12, MemWrite). -/
def State.writeBytes (s : State) : Nat → List Byte → State
  | _, [] => s
  | a, b :: bs => (s.writeByte a b).writeBytes (a + 1) bs

/-- `be16(a)`: the big-endian 16-bit value at an offset (00_scope.md R12). -/
def State.readHalf (s : State) (a : Nat) : Half := be16 (s.readByte a) (s.readByte (a + 1))

/-- Store a 16-bit value big-endian (40_checksum.md R104). -/
def State.storeHalf (s : State) (a : Nat) (c : Half) : State := s.writeBytes a (halfBytes c)

/-- Exchange two bytes: `t <- buf[a] ; buf[a] <- buf[b] ; buf[b] <- t` (43_mutator.md R141, R142). -/
def State.swapByte (s : State) (a b : Nat) : State := (s.writeByte a (s.readByte b)).writeByte b (s.readByte a)

/-- Exchange `n` bytes from `a` with `n` bytes from `b`, in rising order (43_mutator.md R141, R142). -/
def State.swapRange (s : State) : Nat → Nat → Nat → State
  | _, _, 0 => s
  | a, b, n + 1 => (s.swapByte a b).swapRange (a + 1) (b + 1) n

/-! ## The trace, and raising a fault -/

/-- `emit E`: append an event to the trace (00_scope.md R12, 10_state.md R33). -/
def State.emit (s : State) (e : Event) : State := { s with trace := s.trace ++ [e] }

/-- `raise F(info)`: set the fault's sticky flag with its info (60_exceptions.md R213). What halts the engine is the set flag: the raising operation does nothing more, the Control Loop does not write `state`, and `step` runs nothing from there. There is no entry, no vector and no return (R210, R216, R217). -/
def State.raise (s : State) (f : EngineFault) : State := { s with fault := s.fault.add f }

/-- The engine is halted: a fault flag is set (60_exceptions.md R213). -/
def State.halted (s : State) : Bool := s.fault.any

/-- The outcome of a part of an operation that may raise: it went on with a value, or it raised and the operation stops there (60_exceptions.md R213). -/
inductive Attempt (α : Type) where
  | done (a : α) (s : State)
  | raised (s : State)

/-- The state an attempt leaves, whether it went on or raised. -/
def Attempt.final {α : Type} : Attempt α → State
  | .done _ s => s
  | .raised s => s

/-! ## The queues and the indicator (45_interface.md R171 to R175) -/

/-- `rx_ready`: sample what the environment presents (45_interface.md R171). -/
def State.pollReady (s : State) : State := { s with ready := s.rxReady }.emit (.rxReady s.rxReady)

/-- `rx_pop_word`: take the head of the receive queue, or raise RX_UNDERFLOW (45_interface.md R172). -/
def State.popWord (s : State) : Attempt Word :=
  match s.rxq with
  | [] => .raised (s.raise .rxUnderflow)
  | x :: q => .done x ({ s with w := x, rxq := q }.emit (.rxPop x))

/-- `tx_announce`: begin a transmit frame of `r.bitLen` bits (45_interface.md R173). -/
def State.announce (s : State) : State :=
  { s with txExpect := payloadWords s.bitLen, txSent := 0, txq := s.txq ++ [s.bitLen] }.emit (.txAnnounce s.bitLen)

/-- `txSent + 1` where 28 bits hold it; where they do not, the spec states no value and it is a free one (45_interface.md R174, log 11). -/
def State.txSentNext (s : State) : BitVec 28 :=
  if s.txSent = BitVec.allOnes 28 then Config.freeTxSent s.draws else s.txSent + 1

/-- The draw counter after counting a push: it advances where a free value was drawn (log 11). -/
def State.drawsNext (s : State) : Nat := if s.txSent = BitVec.allOnes 28 then s.draws + 1 else s.draws

/-- `tx_push_word`: send `r.w` and count it (45_interface.md R174). -/
def State.pushWord (s : State) : State :=
  { s with txSent := s.txSentNext, draws := s.drawsNext, txq := s.txq ++ [s.w] }.emit (.txPush s.w)

/-- `set_indicator`: write the status indicator (45_interface.md R175). -/
def State.setIndicator (s : State) (code : Half) : State := { s with ind := code }.emit (.setIndicator code)

end Sys2Proof.Machine
end

