-- ==== Sys2Proof/Machine/Control.lean ====
section
/-! DEFINITION. The Control Loop (46_control_loop.md R190 to R199): which operation words each of its steps issues, what follows each operation, and the environment's move between two operations. -/

namespace Sys2Proof.Machine

/-- The operations a Control Loop state runs, in order (46_control_loop.md R190). CLASSIFY's SETIND is issued unless CLASS finds the frame not for us (R192). -/
def loopOps : LoopState → List Instr
  | .wait => [.recv]
  | .classify => [.classify, .setind .frameRx]
  | .process => Pseudo.mutate.expand
  | .transmit => [.xmit]
  | .settle => Pseudo.settle.expand

/-- The words of those operations. -/
def loopWords (q : LoopState) : List Word := (loopOps q).map encode

/-- The words waiting to be issued: what is left of the current Control Loop step, or a whole step of `state` where nothing is left (which no run reaches: log 6). -/
def State.issued (s : State) : List Word := if s.pending = [] then loopWords s.state else s.pending

/-- The operation word that the next step runs. -/
def State.fetch (s : State) : Word := s.issued.headD 0

/-- `state <- q`: the Control Loop enters a state, with that state's operations to issue (46_control_loop.md R190). -/
def State.enter (s : State) (q : LoopState) : State := { s with state := q, pending := loopWords q }

/-- The state that follows when the last operation of a Control Loop step is done (46_control_loop.md R190 to R195). -/
def State.loopNext (s : State) : LoopState :=
  match s.state with
  | .wait => if s.rxOut = .frame then .classify else .wait
  | .classify => if s.cls = .echoRequest then .process else .settle
  | .process => .transmit
  | .transmit => .settle
  | .settle => .wait

/-- What the Control Loop does after operation `i`, with `rest` of its step still to issue: nothing where the engine is halted (60_exceptions.md R213); back to WAIT where CLASS found a frame not for us, with no indicator action (46_control_loop.md R192); the next operation where one is left; else the next state. -/
def State.advance (s : State) (i : Instr) (rest : List Word) : State :=
  if s.halted then s
  else if s.state = .classify ∧ i = .classify ∧ s.cls = .notForUs then s.enter .wait
  else if rest = [] then s.enter s.loopNext
  else { s with pending := rest }

/-- The words the environment appends in its next move. -/
def arrivingWords : List EnvMove → List Word
  | [] => []
  | m :: _ => m.words

/-- The `rxReady` the environment presents after its next move, over the queue it leaves. With no move left it presents true exactly while the queue is non-empty, as the environment of 95_test_vectors.md section 3 does (log 4). -/
def presentedReady (q : List Word) : List EnvMove → Bool
  | [] => !q.isEmpty
  | m :: _ => m.ready

/-- The environment's move between two operations (20_memory.md R62, 10_state.md R31, log 4). -/
def State.environment (s : State) : State :=
  { s with
    rxq := s.rxq ++ arrivingWords s.arrivals
    rxReady := presentedReady (s.rxq ++ arrivingWords s.arrivals) s.arrivals
    arrivals := s.arrivals.tail }

/-- Everything a step does after operation `i`, fetched in state `s`, has left state `t`. -/
def retire (s : State) (i : Instr) (t : State) : State := (t.advance i s.issued.tail).environment

end Sys2Proof.Machine
end

