-- ==== Sys2Proof/Machine/Checksum.lean ====
section
/-! DEFINITION. The Checksum Engine (40_checksum.md R100 to R104). -/

namespace Sys2Proof.Machine

/-- The sum of the 16-bit big-endian words of a byte list, an odd last byte being a high byte (40_checksum.md R101). -/
def wordSum : List Byte → Nat
  | [] => 0
  | [b] => b.toNat <<< 8
  | hi :: lo :: rest => (be16 hi lo).toNat + wordSum rest

/-- One fold: the bits above bit 15 added into the low 16 (40_checksum.md R101). -/
def foldOnce (sum : Nat) : Nat := (sum &&& 0xFFFF) + (sum >>> 16)

/-- Fold while the sum exceeds 16 bits, at most `fuel` times (40_checksum.md R101). -/
def foldFuel : Nat → Nat → Nat
  | 0, sum => sum
  | fuel + 1, sum => if sum > 0xFFFF then foldFuel fuel (foldOnce sum) else sum

/-- Fold until the sum fits 16 bits. Each fold lowers it, so `sum` folds are enough (40_checksum.md R102, log 20). -/
def foldSum (sum : Nat) : Nat := foldFuel sum sum

/-- The Internet checksum of a byte list (40_checksum.md R101). -/
def checksum (d : List Byte) : Half := ~~~ BitVec.ofNat 16 (foldSum (wordSum d))

/-- `r.csum <- checksum(MemRead(off, len))` (40_checksum.md R100). -/
def State.sumRange (s : State) (off len : Nat) : State := { s with csum := checksum (s.readBytes off len) }

/-- CSUM (40_checksum.md R100). Operands that no legal word has are refused (30_encoding.md R83). -/
def execCsum (off len : Byte) (s : State) : Host.Outcome State Fault Refusal :=
  if off.toNat + len.toNat ≤ Config.cap then .next (s.sumRange off.toNat len.toNat)
  else .refused (.csumBeyondBuffer off len)

end Sys2Proof.Machine
end

