-- ==== Sys2Proof/Machine/Classifier.lean ====
section
/-! DEFINITION. The Frame Classifier (42_classifier.md R130 to R137). -/

namespace Sys2Proof.Machine

/-- The classification of the frame in the buffer: destination MAC at 2, EtherType at 14, protocol at 25, ICMP type at 36, and no other check (42_classifier.md R130, R136). -/
def State.frameClass (s : State) : FrameClass :=
  classOf s.cfg (s.readBytes 2 6) (s.readHalf 14) (s.readByte 25) (s.readByte 36)

/-- CLASS (42_classifier.md R130). -/
def execClassify (s : State) : Host.Outcome State Fault Refusal := .next { s with cls := s.frameClass }

end Sys2Proof.Machine
end

