-- ==== Sys2Proof/Machine/Interface.lean ====
section
/-! DEFINITION. The interface primitives (45_interface.md R170 to R179): RXRDY, RXPOP, TXANN, TXPUSH, SETIND, HOLD. -/

namespace Sys2Proof.Machine

/-- RXRDY (45_interface.md R171). -/
def execRxrdy (s : State) : Host.Outcome State Fault Refusal := .next s.pollReady

/-- RXPOP (45_interface.md R172): a pop of the empty queue raises RX_UNDERFLOW. -/
def execRxpop (s : State) : Host.Outcome State Fault Refusal := .next s.popWord.final

/-- TXANN (45_interface.md R173). -/
def execTxann (s : State) : Host.Outcome State Fault Refusal := .next s.announce

/-- TXPUSH (45_interface.md R174). -/
def execTxpush (s : State) : Host.Outcome State Fault Refusal := .next s.pushWord

/-- SETIND (45_interface.md R175). -/
def execSetind (sel : Selector) (s : State) : Host.Outcome State Fault Refusal :=
  .next (s.setIndicator (statusCode s.cfg sel))

/-- `while settleLeft > 0: settleLeft <- settleLeft - 1`: what the loop leaves (45_interface.md R176). -/
def countDown : Nat → Nat
  | 0 => 0
  | n + 1 => countDown n

/-- HOLD (45_interface.md R176), one step: the counter is loaded with SETTLE_DELAY and counted down before the event (log 12). -/
def execHold (s : State) : Host.Outcome State Fault Refusal :=
  .next ({ s with settleLeft := countDown s.cfg.settleDelay }.emit (.hold s.cfg.settleDelay))

end Sys2Proof.Machine
end

