-- ==== Sys2Proof/Machine/Mutator.lean ====
section
/-! DEFINITION. The Packet Mutator (43_mutator.md R140 to R149). -/

namespace Sys2Proof.Machine

/-- SWAPMAC (43_mutator.md R141). -/
def execSwapmac (s : State) : Host.Outcome State Fault Refusal := .next (s.swapRange 2 8 6)

/-- SWAPIP (43_mutator.md R142). -/
def execSwapip (s : State) : Host.Outcome State Fault Refusal := .next (s.swapRange 28 32 4)

/-- SETTYPE: the ICMP type becomes Echo Reply (43_mutator.md R143). -/
def execSettype (s : State) : Host.Outcome State Fault Refusal := .next (s.writeByte 36 0x00)

/-- Zero a checksum field, sum a range, and store the result in the field big-endian (70_reset_and_hazards.md R245, 40_checksum.md R104). -/
def State.refreshChecksum (s : State) (field off len : Nat) : State :=
  let t := (s.writeBytes field [0x00, 0x00]).sumRange off len
  t.storeHalf field t.csum

/-- IPCSUM: the field at 26 over the 20 bytes at 16 (43_mutator.md R144). -/
def execIpcsum (s : State) : Host.Outcome State Fault Refusal := .next (s.refreshChecksum 26 16 20)

/-- ICMPCSUM: the field at 38 over the bytes from 36 to the receive length; ICMP_SHORT where the length is below zero, before any byte is written (43_mutator.md R145). A receive length above 128, which no rule produces, is a breach of the buffer's bound (20_memory.md R51). -/
def execIcmpcsum (s : State) : Host.Outcome State Fault Refusal :=
  if s.rxLen.toNat < 36 then .next (s.raise (.icmpShort s.rxLen))
  else if s.rxLen.toNat ≤ Config.cap then .next (s.refreshChecksum 38 36 (s.rxLen.toNat - 36))
  else .fault .offsetOutOfBuffer

end Sys2Proof.Machine
end

