-- ==== Sys2Proof/Machine/Receiver.lean ====
section
/-! DEFINITION. The FIFO Receiver (41_receiver.md R110 to R120). -/

namespace Sys2Proof.Machine

/-- How many bytes of a word are copied at fill position `n`: `min(4, CAP - n)` (41_receiver.md R113). -/
def copyLen (n : Nat) : Nat := min 4 (Config.cap - n)

/-- Pop `count` payload words and copy them from fill position `n` on, clamped to the buffer; the value is the fill position reached. It stops where a pop raises (41_receiver.md R113, R116). -/
def drain : Nat → Nat → State → Attempt Nat
  | 0, n, s => .done n s
  | count + 1, n, s =>
    match s.popWord with
    | .raised t => .raised t
    | .done x t => drain count (n + copyLen n) (t.writeBytes n ((wordBytes x).take (copyLen n)))

/-- The length word and the counts computed from it (41_receiver.md R112). -/
def State.setLength (s : State) (len : Word) : State :=
  { s with bitLen := len, byteCount := byteCountOf len, wordCount := payloadWords len }

/-- What follows the drain: the receive length and the oversize guard (41_receiver.md R115, R117). -/
def State.closeFrame (s : State) (n : Nat) : State :=
  { s with rxLen := BitVec.ofNat 8 n, rxOut := frameOutcome s.cfg s.byteCount }

/-- RECV after a poll that saw a frame (41_receiver.md R112 to R117). -/
def receiveFrame (s : State) : State :=
  match s.popWord with
  | .raised t => t
  | .done len t =>
    match drain (payloadWords len).toNat 0 (t.setLength len) with
    | .raised u => u
    | .done n u => u.closeFrame n

/-- The state RECV leaves (41_receiver.md R110, R111). -/
def receive (s : State) : State :=
  if s.pollReady.ready then receiveFrame s.pollReady else { s.pollReady with rxOut := .noFrame }

/-- RECV (41_receiver.md R110). -/
def execRecv (s : State) : Host.Outcome State Fault Refusal := .next (receive s)

end Sys2Proof.Machine
end

