-- ==== Sys2Proof/Machine/Transmitter.lean ====
section
/-! DEFINITION. The FIFO Transmitter (44_transmitter.md R160 to R166). -/

namespace Sys2Proof.Machine

/-- The byte of a transmit word at an offset: the buffer byte inside the frame, zero beyond it (44_transmitter.md R163). -/
def State.frameByte (s : State) (a : Nat) : Byte := if a < s.rxLen.toNat then s.readByte a else 0

/-- Transmit word `k`, assembled little-endian from offsets `4k` to `4k + 3` (44_transmitter.md R163). -/
def State.frameWord (s : State) (k : Nat) : Word :=
  wordOfBytes (s.frameByte (4 * k)) (s.frameByte (4 * k + 1)) (s.frameByte (4 * k + 2)) (s.frameByte (4 * k + 3))

/-- Push `count` words from word `k` on (44_transmitter.md R160). -/
def pushFrame : Nat → Nat → State → State
  | 0, _, s => s
  | count + 1, k, s => pushFrame count (k + 1) ({ s with w := s.frameWord k }.pushWord)

/-- The word-count check at the end of XMIT (44_transmitter.md R164). -/
def State.checkSent (s : State) : State :=
  if s.txSent = s.txExpect then s else s.raise (.txMismatch s.txExpect s.txSent)

/-- The state XMIT leaves: the announcement, `ceil(rxLen/4)` pushes, the check (44_transmitter.md R160 to R164). -/
def transmit (s : State) : State := (pushFrame (ceilDiv s.rxLen.toNat 4) 0 s.announce).checkSent

/-- XMIT (44_transmitter.md R160). A receive length above 128, which no rule produces, is a breach of the buffer's bound (20_memory.md R51). -/
def execXmit (s : State) : Host.Outcome State Fault Refusal :=
  if s.rxLen.toNat ≤ Config.cap then .next (transmit s) else .fault .offsetOutOfBuffer

end Sys2Proof.Machine
end

