-- ==== Sys2Proof/Machine/Dispatch.lean ====
section
/-! DEFINITION. Every operation's meaning, one arm each (30_encoding.md R82). -/

namespace Sys2Proof.Machine

def exec (i : Instr) (s : State) : Host.Outcome State Fault Refusal :=
  match i with
  | .rxrdy => Sys2Proof.Machine.execRxrdy s
  | .rxpop => Sys2Proof.Machine.execRxpop s
  | .txann => Sys2Proof.Machine.execTxann s
  | .txpush => Sys2Proof.Machine.execTxpush s
  | .setind sel => Sys2Proof.Machine.execSetind sel s
  | .hold => Sys2Proof.Machine.execHold s
  | .csum off len => Sys2Proof.Machine.execCsum off len s
  | .recv => Sys2Proof.Machine.execRecv s
  | .classify => Sys2Proof.Machine.execClassify s
  | .swapmac => Sys2Proof.Machine.execSwapmac s
  | .swapip => Sys2Proof.Machine.execSwapip s
  | .settype => Sys2Proof.Machine.execSettype s
  | .ipcsum => Sys2Proof.Machine.execIpcsum s
  | .icmpcsum => Sys2Proof.Machine.execIcmpcsum s
  | .xmit => Sys2Proof.Machine.execXmit s

end Sys2Proof.Machine
end

