-- ==== Sys2Proof/Machine/Step.lean ====
section
/-! DEFINITION. One step of the engine: one operation (10_state.md R24), what the Control Loop does after it, and the environment's move (log 6). -/

namespace Sys2Proof.Machine

/-- One step. A halted engine takes none (60_exceptions.md R213); a word that spells no operation is refused (30_encoding.md R83). -/
def step (s : State) : Host.Outcome State Fault Refusal :=
  if s.halted then .fault .halted
  else match decode s.fetch with
    | .bad e => .refused (.illegalWord e)
    | .ok i =>
      match exec i s with
      | .next t => .next (retire s i t)
      | .fault r => .fault r
      | .refused r => .refused r

/-- The state with an operation word of the model's own input (30_encoding.md R83) placed where `step` takes its next word; what the Control Loop was about to issue follows it (log 7). -/
def State.withFetchWord (s : State) (nbits w : Nat) : State :=
  { s with pending := BitVec.ofNat 32 (w % 2 ^ nbits) :: s.issued }

end Sys2Proof.Machine
end

