-- ==== Sys2Proof/Machine/Assembler.lean ====
section
/-! DEFINITION. The assembler syntax (30_encoding.md R85, R86): a printer of operations and a reader of one line. Details the spec leaves open are in log 21. -/

namespace Sys2Proof.Machine

/-- The name of a status selector (30_encoding.md R85). -/
def selectorName : Selector → String
  | .idleWait => "IDLE_WAIT"
  | .frameRx => "FRAME_RX"
  | .idleDone => "IDLE_DONE"

/-- An operation in assembler syntax (30_encoding.md R85). -/
def printInstr : Instr → String
  | .rxrdy => "RXRDY"
  | .rxpop => "RXPOP"
  | .txann => "TXANN"
  | .txpush => "TXPUSH"
  | .setind sel => "SETIND " ++ selectorName sel
  | .hold => "HOLD"
  | .csum off len => "CSUM " ++ toString off.toNat ++ ", " ++ toString len.toNat
  | .recv => "RECV"
  | .classify => "CLASS"
  | .swapmac => "SWAPMAC"
  | .swapip => "SWAPIP"
  | .settype => "SETTYPE"
  | .ipcsum => "IPCSUM"
  | .icmpcsum => "ICMPCSUM"
  | .xmit => "XMIT"

/-- A pseudo-operation is printed as its expansion (30_encoding.md R86). -/
def printPseudo (p : Pseudo) : List String := p.expand.map printInstr

/-- A piece of a line. -/
inductive Token where
  | word (cs : List Char)
  | comma
  deriving DecidableEq, Repr

/-- The word read so far, as a token where there is one. -/
def flushWord (acc : List Char) : List Token := if acc = [] then [] else [.word acc]

/-- Split a line into words and commas, up to a comment (30_encoding.md R85). -/
def tokenize (acc : List Char) : List Char → List Token
  | [] => flushWord acc
  | c :: cs =>
    if c = ';' then flushWord acc
    else if c = ' ' || c = '\t' || c = '\r' then flushWord acc ++ tokenize [] cs
    else if c = ',' then flushWord acc ++ .comma :: tokenize [] cs
    else tokenize (acc ++ [c]) cs

/-- The value of a digit in base 16. -/
def digitValue (c : Char) : Option Nat :=
  if '0' ≤ c ∧ c ≤ '9' then some (c.toNat - '0'.toNat)
  else if 'a' ≤ c ∧ c ≤ 'f' then some (c.toNat - 'a'.toNat + 10)
  else if 'A' ≤ c ∧ c ≤ 'F' then some (c.toNat - 'A'.toNat + 10)
  else none

/-- Read digits in a base, after a value already read. -/
def readDigits (base : Nat) : Nat → List Char → Option Nat
  | n, [] => some n
  | n, c :: cs =>
    match digitValue c with
    | none => none
    | some d => if d < base then readDigits base (n * base + d) cs else none

/-- A number, decimal or `0x` hexadecimal (30_encoding.md R85). -/
def readNumber : List Char → Option Nat
  | [] => none
  | ['0', 'x'] => none
  | '0' :: 'x' :: cs => readDigits 16 0 cs
  | cs => readDigits 10 0 cs

/-- The operation or pseudo-operation a bare mnemonic names (30_encoding.md R82, R86). -/
def bareMnemonic (m : List Char) : Option (List Instr) :=
  if m = "RXRDY".toList then some [.rxrdy]
  else if m = "RXPOP".toList then some [.rxpop]
  else if m = "TXANN".toList then some [.txann]
  else if m = "TXPUSH".toList then some [.txpush]
  else if m = "HOLD".toList then some [.hold]
  else if m = "RECV".toList then some [.recv]
  else if m = "CLASS".toList then some [.classify]
  else if m = "SWAPMAC".toList then some [.swapmac]
  else if m = "SWAPIP".toList then some [.swapip]
  else if m = "SETTYPE".toList then some [.settype]
  else if m = "IPCSUM".toList then some [.ipcsum]
  else if m = "ICMPCSUM".toList then some [.icmpcsum]
  else if m = "XMIT".toList then some [.xmit]
  else if m = "MUTATE".toList then some Pseudo.mutate.expand
  else if m = "SETTLE".toList then some Pseudo.settle.expand
  else none

/-- The selector a name gives (30_encoding.md R85). -/
def readSelector (m : List Char) : Option Selector :=
  if m = "IDLE_WAIT".toList then some .idleWait
  else if m = "FRAME_RX".toList then some .frameRx
  else if m = "IDLE_DONE".toList then some .idleDone
  else none

/-- CSUM with two numbers, legal where `off + len <= 128` (30_encoding.md R83). -/
def csumOf (off len : Nat) : Option (List Instr) :=
  if off + len ≤ 128 then some [.csum (BitVec.ofNat 8 off) (BitVec.ofNat 8 len)] else none

/-- The operations a line's tokens spell; a line with no token spells none, and any other form is refused (30_encoding.md R85). -/
def readTokens : List Token → Option (List Instr)
  | [] => some []
  | [.word m] => bareMnemonic m
  | [.word m, .word sel] =>
    if m = "SETIND".toList then (readSelector sel).map (fun s => [.setind s]) else none
  | [.word m, .word off, .comma, .word len] =>
    if m = "CSUM".toList then
      match readNumber off, readNumber len with
      | some a, some b => csumOf a b
      | _, _ => none
    else none
  | _ => none

/-- Read one line of assembler (30_encoding.md R85). -/
def assembleLine (line : String) : Option (List Instr) := readTokens (tokenize [] line.toList)

end Sys2Proof.Machine
end

