-- ==== Sys2Proof/Safety.lean ====
section
/-! DEFINITION. What claims take as a good state and a good run: the engine not halted (60_exceptions.md R213), the environment's duties (45_interface.md R177), and the invariants of the engine's own data and of its Control Loop. -/

namespace Sys2Proof.Machine

/-- The transmit words an event puts into the transmit queue (20_memory.md R61). -/
def Event.sent : Event → List Word
  | .txAnnounce n => [n]
  | .txPush x => [x]
  | .rxReady _ => []
  | .rxPop _ => []
  | .setIndicator _ => []
  | .hold _ => []

/-- Byte `i` of a sequence of queue words, each word's bytes in little-endian order (20_memory.md R57). -/
def streamByte (ws : List Word) (i : Nat) : Byte := wordByte (ws.getD (i / 4) 0) (i % 4)

/-- A queue of whole frames: each a length word followed by exactly the payload words it claims (45_interface.md R177). -/
inductive WholeFrames : List Word → Prop where
  | nil : WholeFrames []
  | frame (len : Word) (payload rest : List Word) :
      payload.length = (payloadWords len).toNat → WholeFrames rest → WholeFrames (len :: (payload ++ rest))

/-- The head of a queue is a length word followed by at least the payload words it claims (45_interface.md R177 (1)). -/
def FrameAtHead (q : List Word) : Prop :=
  ∃ (len : Word) (payload rest : List Word), q = len :: (payload ++ rest) ∧ payload.length = (payloadWords len).toNat

/-- The environment's duties on the receive side, as they stand in one state (45_interface.md R177): what is queued is whole frames, `rxReady` is true only where a whole frame is at the head (1), and what is still to come are whole frames (3). -/
structure DutiesKept (s : State) : Prop where
  queue    : WholeFrames s.rxq
  ready    : s.rxReady = true → FrameAtHead s.rxq
  arriving : ∀ m ∈ s.arrivals, WholeFrames m.words

/-- The environment's duties on `rxReady` over a step from `s` to `t` (45_interface.md R177): it presents true only where a whole frame is at the head (1), and goes on presenting true where the step popped nothing, that is where the queue only gained the words of the move (2; 20_memory.md R61). -/
structure DutiesOver (s t : State) : Prop where
  ready : t.rxReady = true → FrameAtHead t.rxq
  stays : s.rxReady = true → t.rxq = s.rxq ++ arrivingWords s.arrivals → t.rxReady = true

/-- The environment keeps its duties on `rxReady` over each of the next `k` steps: the premise a claim about a run takes (45_interface.md R177). -/
def EnvironmentKeepsDuties : Nat → State → Prop
  | 0, _ => True
  | k + 1, s => ∀ t, step s = .next t → DutiesOver s t ∧ EnvironmentKeepsDuties k t

/-- What holds of the engine's own data in every state a run reaches, whatever words are issued. -/
structure DataInv (s : State) : Prop where
  /-- The Frame Buffer is in canonical form, every listed offset inside it (20_memory.md R51). -/
  memory    : Memory.wf s.cfg s.mem
  /-- `r.byteCount` and `r.wordCount` are those of `r.bitLen` (41_receiver.md R112). -/
  bytes     : s.byteCount = byteCountOf s.bitLen
  words     : s.wordCount = payloadWords s.bitLen
  /-- `r.rxLen` is at most 128 and a multiple of 4 (41_receiver.md R115, 44_transmitter.md R163). -/
  length    : s.rxLen.toNat ≤ 128
  aligned   : s.rxLen.toNat % 4 = 0
  /-- While no fault is raised `r.rxLen` is `min(4*wordCount, 128)` (41_receiver.md R115). -/
  received  : s.halted = false → s.rxLen.toNat = min (4 * s.wordCount.toNat) 128
  /-- `ind` is one of the three status codes (10_state.md R28). -/
  indicator : ∃ sel, s.ind = statusCode s.cfg sel
  /-- No settle delay is observed half done (10_state.md R24, R35). -/
  settled   : s.settleLeft = 0
  /-- The transmit queue holds what the trace says was sent, in trace order (20_memory.md R64). -/
  sent      : s.txq = s.trace.flatMap Event.sent

/-- What the Control Loop still has to issue is a non-empty rest of its state's step (46_control_loop.md R190). -/
def IssuesLoop (s : State) : Prop := s.pending ≠ [] ∧ s.pending <:+ loopWords s.state

/-- The decision each Control Loop state rests on (46_control_loop.md R190): past WAIT a frame was received; past CLASS it is for the station; in PROCESS and TRANSMIT it is an Echo Request. -/
def DecisionsHold (s : State) : Prop :=
  match s.state with
  | .wait => True
  | .classify => s.rxOut = .frame ∧ (s.pending.length = 1 → s.cls ≠ .notForUs)
  | .process => s.rxOut = .frame ∧ s.cls = .echoRequest
  | .transmit => s.rxOut = .frame ∧ s.cls = .echoRequest
  | .settle => s.rxOut = .frame ∧ s.cls ≠ .notForUs

/-- The states a run of the Control Loop reaches, with no word of the model's own input. -/
structure LoopInv (s : State) : Prop where
  data      : DataInv s
  issues    : IssuesLoop s
  decisions : DecisionsHold s

/-- `t` is `s` but for the Control Loop's place and what the environment owns: everything the operations of a Control Loop step write is the same. -/
def SameEngine (s t : State) : Prop :=
  t = { s with state := t.state, pending := t.pending, rxq := t.rxq, rxReady := t.rxReady, arrivals := t.arrivals }

/-- The queue words an event took from the receive queue (10_state.md R33). -/
def Event.popped : Event → List Word
  | .rxPop x => [x]
  | .rxReady _ => []
  | .txAnnounce _ => []
  | .txPush _ => []
  | .setIndicator _ => []
  | .hold _ => []

/-- A Control Loop step is about to begin (46_control_loop.md R190): all of the state's operations are still to issue, and the engine is not halted. -/
def AtStart (q : LoopState) (s : State) : Prop := s.halted = false ∧ s.state = q ∧ s.pending = loopWords q

end Sys2Proof.Machine
end

