-- ==== Sys2Proof/Certificates/Slice0/Obligations.lean ====
section
/-! DEFINITION. The statements for the provers, made from the numbered rules of spec/ file by file. Where a clause rests on a choice of the model, the docstring says so and names the log entry. -/

open Sys2Proof Sys2Proof.Machine

/-! ## Encoding (30_encoding.md) -/

/-- Decoding the word of any legal operation gives that operation back, every operand at every value its field admits (R80 to R83). -/
def Obligations.DecodeOfEncodeIsTheInstruction : Prop :=
  ∀ i : Instr, i.wf = true → decode (encode i) = .ok i

/-- Every word that decodes is the one word of a legal operation: no two words spell the same operation (R80 to R83). -/
def Obligations.DecodedWordIsTheEncoding : Prop :=
  ∀ (w : Word) (i : Instr), decode w = .ok i → encode i = w ∧ i.wf = true

/-- R83: exactly the words it lists are legal, a state that is about to run any other word refuses, and the words the Control Loop issues are all legal. The fields are written as numbers: `op`, `a`, `b` and `z` are the four bytes of the word. -/
def Obligations.LegalWordsAreExactlyThoseListed : Prop :=
  (∀ q : LoopState, ∀ x ∈ loopWords q, ∃ i, decode x = .ok i) ∧
  ∀ w : Word,
    let op := w.toNat % 256
    let a := w.toNat / 2 ^ 8 % 256
    let b := w.toNat / 2 ^ 16 % 256
    let z := w.toNat / 2 ^ 24
    let legal := z = 0 ∧
      ((op = 0x05 ∧ b = 0 ∧ a ≤ 2) ∨ (op = 0x10 ∧ a + b ≤ 128) ∨
        (op ∈ [0x01, 0x02, 0x03, 0x04, 0x06, 0x20, 0x30, 0x40, 0x41, 0x42, 0x43, 0x44, 0x50] ∧ a = 0 ∧ b = 0))
    (legal → ∃ i, decode w = .ok i) ∧
      (¬ legal → (∀ i, decode w ≠ .ok i) ∧
        ∀ s : State, s.halted = false → s.fetch = w → ∃ e, step s = .refused (.illegalWord e))

/-- The words of 95_test_vectors.md V-EN-1 to V-EN-14, each written out, with R85's example and the illegal CSUM of its section 2.2. -/
def Obligations.VectorWordsDecodeAsListed : Prop :=
  decode 0x00000001 = .ok .rxrdy ∧ decode 0x00000002 = .ok .rxpop ∧ decode 0x00000003 = .ok .txann ∧
  decode 0x00000004 = .ok .txpush ∧ decode 0x00000005 = .ok (.setind .idleWait) ∧
  decode 0x00000105 = .ok (.setind .frameRx) ∧ decode 0x00000205 = .ok (.setind .idleDone) ∧
  decode 0x00000305 = .bad .selectorOutOfRange ∧ decode 0x00000006 = .ok .hold ∧
  decode 0x00000020 = .ok .recv ∧ decode 0x00000030 = .ok .classify ∧ decode 0x00000040 = .ok .swapmac ∧
  decode 0x00000041 = .ok .swapip ∧ decode 0x00000042 = .ok .settype ∧ decode 0x00000043 = .ok .ipcsum ∧
  decode 0x00000044 = .ok .icmpcsum ∧ decode 0x00000050 = .ok .xmit ∧ decode 0x00000120 = .bad .operandNotZero ∧
  decode 0x01000020 = .bad .reservedBitsSet ∧ decode 0x00000000 = .bad .unassignedOpcode ∧
  decode 0x00000045 = .bad .unassignedOpcode ∧ decode 0x000000FF = .bad .unassignedOpcode ∧
  decode 0x00141010 = .ok (.csum 16 20) ∧ decode 0x00800110 = .bad .rangeBeyondBuffer

/-- The reader of assembler lines reads back what the printer of operations prints, every operand of a legal operation at every value, and the lines printed for a pseudo-operation spell its sequence (R85, R86; the details are the model's choice, log 21). -/
def Obligations.AssemblerReadsWhatIsPrinted : Prop :=
  (∀ i : Instr, i.wf = true → assembleLine (printInstr i) = some [i]) ∧
  Pseudo.mutate.expand = [.swapmac, .swapip, .settype, .ipcsum, .icmpcsum] ∧
  Pseudo.settle.expand = [.hold, .setind .idleDone] ∧
  ∀ p : Pseudo, (printPseudo p).map assembleLine = p.expand.map (fun i => some [i])

/-- A step runs the operation that the next word decodes to, and then does what `retire` says (the Control Loop's move and the environment's, log 4, log 6); a fault of the operation is a fault of the step, and no operation that a word spells is refused. A word placed by `withFetchWord` is the next word (log 7). -/
def Obligations.StepRunsTheFetchedOperation : Prop :=
  (∀ (s : State) (i : Instr), s.halted = false → decode s.fetch = .ok i →
    (∀ t, exec i s = .next t → step s = .next (retire s i t)) ∧
    (∀ r, exec i s = .fault r → step s = .fault r) ∧ ∀ r, exec i s ≠ .refused r) ∧
  ∀ (s : State) (w : Word), (s.withFetchWord 32 w.toNat).fetch = w

/-- R190: the operation words each Control Loop state issues, in order. -/
def Obligations.LoopIssuesTheListedWords : Prop :=
  loopWords .wait = [0x00000020] ∧ loopWords .classify = [0x00000030, 0x00000105] ∧
  loopWords .process = [0x00000040, 0x00000041, 0x00000042, 0x00000043, 0x00000044] ∧
  loopWords .transmit = [0x00000050] ∧ loopWords .settle = [0x00000006, 0x00000205]

/-- R88: the numbers of the receive outcomes and of the classes, and that the numbers it calls never held are those of no value; with the numbers R23 gives the Control Loop states (5 to 7 never held) and those R212 gives the faults, whatever they record. -/
def Obligations.OutcomesAndClassesHaveTheListedCodes : Prop :=
  RxOutcome.noFrame.code = 0 ∧ RxOutcome.frame.code = 1 ∧ RxOutcome.oversize.code = 2 ∧ (∀ o : RxOutcome, o.code ≠ 3) ∧
  FrameClass.echoRequest.code = 0 ∧ FrameClass.notForUs.code = 1 ∧ FrameClass.notIpv4.code = 2 ∧
  FrameClass.notIcmp.code = 3 ∧ FrameClass.notEchoRequest.code = 4 ∧
  (∀ c : FrameClass, c.code.toNat < 5) ∧
  LoopState.wait.code = 0 ∧ LoopState.classify.code = 1 ∧ LoopState.process.code = 2 ∧ LoopState.transmit.code = 3 ∧
  LoopState.settle.code = 4 ∧ (∀ q : LoopState, q.code.toNat < 5) ∧
  EngineFault.rxUnderflow.code = 1 ∧ (∀ n, (EngineFault.icmpShort n).code = 2) ∧
  ∀ e n, (EngineFault.txMismatch e n).code = 3

/-! ## Interface primitives (45_interface.md) -/

/-- R171: RXRDY samples what the environment presents, emits the event, and has no other effect. -/
def Obligations.RxrdySamplesReady : Prop :=
  encode .rxrdy = 0x00000001 ∧
  ∀ s : State, exec .rxrdy s = .next { s with ready := s.rxReady, trace := s.trace ++ [.rxReady s.rxReady] }

/-- R172: RXPOP takes the head of the queue, or raises RX_UNDERFLOW on the empty queue with no other effect. -/
def Obligations.RxpopTakesTheHeadOrUnderflows : Prop :=
  encode .rxpop = 0x00000002 ∧
  (∀ (s : State) (x : Word) (q : List Word), s.rxq = x :: q →
    exec .rxpop s = .next { s with w := x, rxq := q, trace := s.trace ++ [.rxPop x] }) ∧
  ∀ s : State, s.rxq = [] → exec .rxpop s = .next { s with fault := { s.fault with rxUnderflow := true } }

/-- R173: TXANN announces `r.bitLen`, expects `ceil(ceil(bitLen/8)/4)` words and starts counting; the word it sends enters the transmit queue (R61). -/
def Obligations.TxannAnnouncesTheBitLength : Prop :=
  encode .txann = 0x00000003 ∧
  ∀ s : State, exec .txann s = .next
    { s with
      txExpect := BitVec.ofNat 28 (((s.bitLen.toNat + 7) / 8 + 3) / 4), txSent := 0
      txq := s.txq ++ [s.bitLen], trace := s.trace ++ [.txAnnounce s.bitLen] }

/-- R174: TXPUSH sends `r.w` and counts it. Where the 28 bits of `txSent` cannot hold the count the value is free (the model's choice, log 11): the statement says nothing of it there. -/
def Obligations.TxpushSendsAndCounts : Prop :=
  encode .txpush = 0x00000004 ∧
  ∀ s : State, ∃ n d, exec .txpush s = .next
      { s with txSent := n, draws := d, txq := s.txq ++ [s.w], trace := s.trace ++ [.txPush s.w] } ∧
    (s.txSent.toNat + 1 < 2 ^ 28 → n.toNat = s.txSent.toNat + 1 ∧ d = s.draws)

/-- R175: SETIND writes the code its selector names to `ind`, emits the event, and changes nothing else. -/
def Obligations.SetindWritesTheSelectedCode : Prop :=
  encode (.setind .idleWait) = 0x00000005 ∧ encode (.setind .frameRx) = 0x00000105 ∧
  encode (.setind .idleDone) = 0x00000205 ∧
  ∀ s : State,
    exec (.setind .idleWait) s = .next
      { s with ind := s.cfg.statusIdleWait, trace := s.trace ++ [.setIndicator s.cfg.statusIdleWait] } ∧
    exec (.setind .frameRx) s = .next
      { s with ind := s.cfg.statusFrameRx, trace := s.trace ++ [.setIndicator s.cfg.statusFrameRx] } ∧
    exec (.setind .idleDone) s = .next
      { s with ind := s.cfg.statusIdleDone, trace := s.trace ++ [.setIndicator s.cfg.statusIdleDone] }

/-- R176: HOLD ends with no tick left, for every SETTLE_DELAY, emits the event, and touches no queue and no buffer byte. That it is one step is among the two ways R176 allows (log 12). -/
def Obligations.HoldEndsWithNoTickLeft : Prop :=
  encode .hold = 0x00000006 ∧
  ∀ s : State, exec .hold s = .next { s with settleLeft := 0, trace := s.trace ++ [.hold s.cfg.settleDelay] }

/-! ## Checksum Engine (40_checksum.md) -/

/-- R100: CSUM writes `r.csum` and nothing else. Its operands are those of a legal word; `CsumBeyondTheBufferIsRefused` says what the model does with any other. -/
def Obligations.CsumWritesOnlyTheSum : Prop :=
  ∀ off len : Byte, off.toNat + len.toNat ≤ 128 →
    encode (.csum off len) = 0x00#8 ++ len ++ off ++ 0x10#8 ∧
    ∀ s : State, exec (.csum off len) s = .next
      { s with csum := checksum ((List.range len.toNat).map (fun k => s.readByte (off.toNat + k))) }

/-- The model's choice (log 17): R83 refuses the words that spell no operation, and the model refuses the CSUM term of operands that no legal word has, whatever the state. -/
def Obligations.CsumBeyondTheBufferIsRefused : Prop :=
  ∀ (off len : Byte) (s : State), 128 < off.toNat + len.toNat →
    exec (.csum off len) s = .refused (.csumBeyondBuffer off len)

/-- What R101's loop computes, in one formula: the bytes at even places weigh 256 and those at odd places 1 (so an odd last byte is a high byte), the sum is folded to 16 bits (0 only for the sum 0, else the residue modulo 0xFFFF in 1 to 0xFFFF, which R102 says of folding), and the result is the complement. -/
def Obligations.ChecksumIsTheComplementedFoldedSum : Prop :=
  ∀ d : List Byte,
    let sum := ((List.range d.length).map (fun k => (d.getD k 0).toNat * (if k % 2 = 0 then 256 else 1))).sum
    (checksum d).toNat = 0xFFFF - (if sum = 0 then 0 else (sum - 1) % 0xFFFF + 1)

/-- What R102 (an inference the spec marks as its own) says of folding: each fold lowers a sum above 0xFFFF, the result fits 16 bits, keeps the residue modulo 0xFFFF and is zero only for zero, and folding on the way gives the same result. -/
def Obligations.FoldingAtAnyPointGivesTheSameSum : Prop :=
  (∀ n, 0xFFFF < n → foldOnce n < n ∧ foldOnce n % 0xFFFF = n % 0xFFFF ∧ foldOnce n ≠ 0) ∧
  (∀ n, foldSum n ≤ 0xFFFF ∧ foldSum n % 0xFFFF = n % 0xFFFF ∧ (foldSum n = 0 ↔ n = 0)) ∧
  ∀ m n, foldSum (foldSum m + n) = foldSum (m + n)

/-- What R103 (1) (an inference the spec marks as its own) says: the checksum is 0xFFFF exactly when the range is empty or all its bytes are zero. -/
def Obligations.ChecksumIsAllOnesExactlyForZeroBytes : Prop :=
  ∀ d : List Byte, checksum d = 0xFFFF ↔ ∀ b ∈ d, b = 0

/-- What R103 (2) and (3) (inferences the spec marks as its own) say of a range of even length with its field at an even offset: the checksum stored big-endian (R104) makes the completed range sum to 0, and zeroing the field again gives it again. The second clause is R103 (3) for the range as a list. -/
def Obligations.StoredChecksumVerifies : Prop :=
  ∀ (before after : List Byte), before.length % 2 = 0 → after.length % 2 = 0 →
    let c := checksum (before ++ [0, 0] ++ after)
    let completed := before ++ [c.extractLsb' 8 8, c.extractLsb' 0 8] ++ after
    checksum completed = 0x0000 ∧
      checksum ((completed.set before.length 0).set (before.length + 1) 0) = c

/-! ## Byte order (20_memory.md) -/

/-- What R58 (an inference the spec marks as its own) says: a word received into offsets `4k` to `4k + 3` (R57) and assembled from them for sending (R163), inside the frame, is the same word. -/
def Obligations.WordReceivedIsSentUnchanged : Prop :=
  ∀ (s : State) (k : Nat) (x : Word), 4 * k + 4 ≤ s.rxLen.toNat →
    (s.writeBytes (4 * k) (wordBytes x)).frameWord k = x

/-! ## FIFO Receiver (41_receiver.md) -/

/-- R111: with nothing presented RECV pops nothing, writes no byte, and changes only `r.ready` and `r.rxOut`, its poll in the trace. -/
def Obligations.RecvWithNothingReadyPopsNothing : Prop :=
  ∀ s : State, s.rxReady = false →
    exec .recv s = .next { s with ready := false, rxOut := .noFrame, trace := s.trace ++ [.rxReady false] }

/-- R112, R113, R114, R116 and R117 for a frame whose words are all queued: the counts, exactly `1 + wordCount` pops, the clamped little-endian copy with every other byte unchanged, the receive length and the oversize guard after the drain; nothing else changes. -/
def Obligations.RecvMovesTheFrameIntoTheBuffer : Prop :=
  ∀ (s : State) (len : Word) (ws rest : List Word), s.rxReady = true → s.rxq = len :: (ws ++ rest) →
    ws.length = ((len.toNat + 7) / 8 + 3) / 4 →
    ∃ t, exec .recv s = .next t ∧
      t = { s with
        ready := true, w := ws.getLastD len, bitLen := len
        byteCount := BitVec.ofNat 30 ((len.toNat + 7) / 8)
        wordCount := BitVec.ofNat 28 (((len.toNat + 7) / 8 + 3) / 4)
        rxLen := BitVec.ofNat 8 (min (4 * ws.length) 128)
        rxOut := if (len.toNat + 7) / 8 > 128 + s.cfg.oversizeSlack then .oversize else .frame
        rxq := rest, mem := t.mem
        trace := s.trace ++ .rxReady true :: .rxPop len :: ws.map .rxPop } ∧
      ∀ a, t.readByte a =
        if a < min (4 * ws.length) 128 then (ws.getD (a / 4) 0).extractLsb' (8 * (a % 4)) 8 else s.readByte a

/-- R172 and R213 inside RECV: where the queue runs out, at the length word or after it, every queued word is popped, RX_UNDERFLOW is set, and the receive length and outcome are not written. -/
def Obligations.RecvOfAShortQueueUnderflows : Prop :=
  (∀ s : State, s.rxReady = true → s.rxq = [] →
    exec .recv s = .next
      { s with ready := true, fault := { s.fault with rxUnderflow := true }, trace := s.trace ++ [.rxReady true] }) ∧
  ∀ (s : State) (len : Word) (ws : List Word), s.rxReady = true → s.rxq = len :: ws →
    ws.length < ((len.toNat + 7) / 8 + 3) / 4 →
    ∃ t, exec .recv s = .next t ∧
      t = { s with
        ready := true, w := ws.getLastD len, bitLen := len
        byteCount := BitVec.ofNat 30 ((len.toNat + 7) / 8)
        wordCount := BitVec.ofNat 28 (((len.toNat + 7) / 8 + 3) / 4)
        fault := { s.fault with rxUnderflow := true }
        rxq := [], mem := t.mem
        trace := s.trace ++ .rxReady true :: .rxPop len :: ws.map .rxPop } ∧
      ∀ a, t.readByte a =
        if a < min (4 * ws.length) 128 then (ws.getD (a / 4) 0).extractLsb' (8 * (a % 4)) 8 else s.readByte a

/-! ## Frame Classifier (42_classifier.md) -/

/-- R130 to R135: the four checks in order, the first failing one deciding; only `r.cls` is written. -/
def Obligations.ClassDecidesByTheFirstFailingCheck : Prop :=
  encode .classify = 0x00000030 ∧
  ∀ s : State, ∃ c, exec .classify s = .next { s with cls := c } ∧
    let mine := ∀ i < 6, s.readByte (2 + i) = s.cfg.stationMac.toList.getD i 0
    let ipv4 := s.readByte 14 = 0x08 ∧ s.readByte 15 = 0x00
    (¬ mine → c = .notForUs) ∧
    (mine → ¬ ipv4 → c = .notIpv4) ∧
    (mine → ipv4 → s.readByte 25 ≠ 1 → c = .notIcmp) ∧
    (mine → ipv4 → s.readByte 25 = 1 → s.readByte 36 ≠ 8 → c = .notEchoRequest) ∧
    (mine → ipv4 → s.readByte 25 = 1 → s.readByte 36 = 8 → c = .echoRequest)

/-- What R136 (an inference the spec marks as its own) says: CLASS reads the station address and ten bytes and nothing else, so two states that agree there are classified alike, whatever the receive length. -/
def Obligations.ClassReadsNothingElse : Prop :=
  ∀ s t : State, s.cfg.stationMac = t.cfg.stationMac →
    (∀ a ∈ [2, 3, 4, 5, 6, 7, 14, 15, 25, 36], s.readByte a = t.readByte a) →
    ∃ c, exec .classify s = .next { s with cls := c } ∧ exec .classify t = .next { t with cls := c }

/-! ## Packet Mutator (43_mutator.md) -/

/-- R141: SWAPMAC exchanges bytes 2 to 7 with bytes 8 to 13 and changes nothing else. -/
def Obligations.SwapmacExchangesTheMacAddresses : Prop :=
  encode .swapmac = 0x00000040 ∧
  ∀ s : State, ∃ t, exec .swapmac s = .next t ∧ t = { s with mem := t.mem } ∧
    ∀ a, t.readByte a =
      if 2 ≤ a ∧ a < 8 then s.readByte (a + 6) else if 8 ≤ a ∧ a < 14 then s.readByte (a - 6) else s.readByte a

/-- R142: SWAPIP exchanges bytes 28 to 31 with bytes 32 to 35 and changes nothing else. -/
def Obligations.SwapipExchangesTheIpAddresses : Prop :=
  encode .swapip = 0x00000041 ∧
  ∀ s : State, ∃ t, exec .swapip s = .next t ∧ t = { s with mem := t.mem } ∧
    ∀ a, t.readByte a =
      if 28 ≤ a ∧ a < 32 then s.readByte (a + 4) else if 32 ≤ a ∧ a < 36 then s.readByte (a - 4) else s.readByte a

/-- What R147 (an inference the spec marks as its own) says: each swap run twice restores the whole state, for every buffer in canonical form. -/
def Obligations.SwapsRunTwiceRestoreTheState : Prop :=
  ∀ s : State, Memory.wf s.cfg s.mem →
    (∃ t, exec .swapmac s = .next t ∧ exec .swapmac t = .next s) ∧
    (∃ t, exec .swapip s = .next t ∧ exec .swapip t = .next s)

/-- R143: SETTYPE writes 0 to byte 36 and changes nothing else, whatever the receive length. -/
def Obligations.SettypeWritesEchoReply : Prop :=
  encode .settype = 0x00000042 ∧
  ∀ s : State, ∃ t, exec .settype s = .next t ∧ t = { s with mem := t.mem } ∧
    ∀ a, t.readByte a = if a = 36 then 0 else s.readByte a

/-- R144: IPCSUM sums the 20 bytes at 16 with the field at 26 zeroed, stores the sum there high byte first, leaves it in `r.csum`, and changes nothing else; the completed header then sums to 0. -/
def Obligations.IpcsumRefreshesTheHeaderChecksum : Prop :=
  encode .ipcsum = 0x00000043 ∧
  ∀ s : State, ∃ t, exec .ipcsum s = .next t ∧ t = { s with mem := t.mem, csum := t.csum } ∧
    t.csum = checksum ((List.range 20).map (fun k => if k = 10 ∨ k = 11 then 0 else s.readByte (16 + k))) ∧
    (∀ a, t.readByte a =
      if a = 26 then t.csum.extractLsb' 8 8 else if a = 27 then t.csum.extractLsb' 0 8 else s.readByte a) ∧
    checksum ((List.range 20).map (fun k => t.readByte (16 + k))) = 0x0000

/-- R145: ICMPCSUM sums the bytes from 36 to the receive length with the field at 38 zeroed, stores the sum there high byte first (also where the field lies outside the frame), leaves it in `r.csum`, and changes nothing else; a receive length below 36 raises ICMP_SHORT, which records it, with no other effect. -/
def Obligations.IcmpcsumRefreshesTheMessageChecksum : Prop :=
  encode .icmpcsum = 0x00000044 ∧
  (∀ s : State, 36 ≤ s.rxLen.toNat → s.rxLen.toNat ≤ 128 →
    ∃ t, exec .icmpcsum s = .next t ∧ t = { s with mem := t.mem, csum := t.csum } ∧
      t.csum = checksum ((List.range (s.rxLen.toNat - 36)).map
        (fun k => if k = 2 ∨ k = 3 then 0 else s.readByte (36 + k))) ∧
      ∀ a, t.readByte a =
        if a = 38 then t.csum.extractLsb' 8 8 else if a = 39 then t.csum.extractLsb' 0 8 else s.readByte a) ∧
  ∀ s : State, s.rxLen.toNat < 36 →
    exec .icmpcsum s = .next { s with fault := { s.fault with icmpShort := some s.rxLen } }

/-- The bound of R51 (an inference the spec marks as its own): in states that no run reaches, where `r.rxLen` is above 128, the two operations that would read beyond the buffer stop (log 10). -/
def Obligations.ReadsBeyondTheBufferStop : Prop :=
  ∀ s : State, 128 < s.rxLen.toNat →
    exec .icmpcsum s = .fault .offsetOutOfBuffer ∧ exec .xmit s = .fault .offsetOutOfBuffer

/-- What R148 (1) (an inference the spec marks as its own) says: SWAPIP does not change the sum IPCSUM finds. -/
def Obligations.HeaderChecksumUnchangedBySwap : Prop :=
  ∀ s : State, ∃ t u v, exec .ipcsum s = .next t ∧ exec .swapip s = .next u ∧ exec .ipcsum u = .next v ∧
    v.csum = t.csum

/-- What R148 (2) (an inference the spec marks as its own) says: where the request's ICMP checksum is correct over the received range, the reply's is congruent to it plus 0x0800 modulo 0xFFFF. -/
def Obligations.MessageChecksumAfterTypeChange : Prop :=
  ∀ s : State, 40 ≤ s.rxLen.toNat → s.rxLen.toNat ≤ 128 → s.readByte 36 = 8 →
    checksum ((List.range (s.rxLen.toNat - 36)).map (fun k => if k = 2 ∨ k = 3 then 0 else s.readByte (36 + k))) =
      s.readByte 38 ++ s.readByte 39 →
    ∃ t u, exec .settype s = .next t ∧ exec .icmpcsum t = .next u ∧
      u.csum.toNat % 0xFFFF = ((s.readByte 38 ++ s.readByte 39).toNat + 0x0800) % 0xFFFF

/-! ## FIFO Transmitter (44_transmitter.md) -/

/-- R160 to R164: the announcement, `ceil(rxLen/4)` words assembled little-endian with zeros beyond the receive length, and TX_MISMATCH, recording both counts, exactly where the words pushed differ from those announced; with the receive length RECV leaves (R115), that is exactly where the frame does not fit the buffer. No buffer byte is written and nothing else changes. -/
def Obligations.XmitSendsTheFrame : Prop :=
  encode .xmit = 0x00000050 ∧
  (∀ s : State, s.rxLen.toNat ≤ 128 →
    let byte := fun a => if a < s.rxLen.toNat then s.readByte a else 0#8
    let word : Nat → Word := fun k => byte (4 * k + 3) ++ byte (4 * k + 2) ++ byte (4 * k + 1) ++ byte (4 * k)
    let nw := (s.rxLen.toNat + 3) / 4
    let expect := BitVec.ofNat 28 (((s.bitLen.toNat + 7) / 8 + 3) / 4)
    exec .xmit s = .next
      { s with
        w := if nw = 0 then s.w else word (nw - 1)
        txExpect := expect, txSent := BitVec.ofNat 28 nw
        txq := s.txq ++ s.bitLen :: (List.range nw).map word
        trace := s.trace ++ .txAnnounce s.bitLen :: (List.range nw).map (fun k => .txPush (word k))
        fault := if BitVec.ofNat 28 nw = expect then s.fault
          else { s.fault with txMismatch := some (expect, BitVec.ofNat 28 nw) } }) ∧
  ∀ s : State, s.rxLen.toNat = min (4 * (((s.bitLen.toNat + 7) / 8 + 3) / 4)) 128 →
    ∃ t, exec .xmit s = .next t ∧ ((s.bitLen.toNat + 7) / 8 ≤ 128 → t.fault = s.fault ∧ t.txSent = t.txExpect) ∧
      (128 < (s.bitLen.toNat + 7) / 8 →
        t.fault = { s.fault with txMismatch := some (BitVec.ofNat 28 (((s.bitLen.toNat + 7) / 8 + 3) / 4), 32) })

/-- What R166 (an inference the spec marks as its own) says, without its proviso, which a receive length that is a multiple of 4 makes unnecessary: a whole frame that fits the buffer, received and sent back with nothing in between, is announced with its own length word and sent word for word, with no fault. -/
def Obligations.FrameSentBackWordForWord : Prop :=
  ∀ (s : State) (len : Word) (ws rest : List Word), s.rxReady = true → s.rxq = len :: (ws ++ rest) →
    ws.length = ((len.toNat + 7) / 8 + 3) / 4 → (len.toNat + 7) / 8 ≤ 128 →
    ∃ t u, exec .recv s = .next t ∧ exec .xmit t = .next u ∧
      u.txq = s.txq ++ len :: ws ∧ u.rxq = rest ∧ u.fault = s.fault ∧ ∀ a, u.readByte a = t.readByte a

/-! ## Control Loop (46_control_loop.md) -/

/-- R191: a WAIT step runs RECV and goes to CLASSIFY on a frame, else to WAIT, writing no indicator; where RECV raises, `state` stays. The environment's move follows (log 4). -/
def Obligations.WaitStepRunsRecv : Prop :=
  ∀ s : State, AtStart .wait s →
    ∃ u t, exec .recv s = .next u ∧ step s = .next t ∧ SameEngine u t ∧ t.ind = s.ind ∧
      (t.halted = true → t.state = .wait) ∧
      (t.halted = false → t.rxOut = .frame → AtStart .classify t) ∧
      (t.halted = false → t.rxOut ≠ .frame → AtStart .wait t)

/-- R192: a CLASSIFY step runs CLASS; a frame not for us goes straight back to WAIT; any other has the indicator set to frame-received and goes to PROCESS if it is an Echo Request, else to SETTLE. One operation step of the model, or two (log 6). -/
def Obligations.ClassifyStepBranches : Prop :=
  ∀ s : State, AtStart .classify s →
    ∃ c, exec .classify s = .next { s with cls := c } ∧
      (c = .notForUs → ∃ t, step s = .next t ∧ AtStart .wait t ∧ SameEngine { s with cls := c } t) ∧
      (c ≠ .notForUs → ∃ t, Host.Core.run Sys2Proof.core 2 s = .next t ∧
        AtStart (if c = .echoRequest then .process else .settle) t ∧
        SameEngine { s with
          cls := c, ind := s.cfg.statusFrameRx, trace := s.trace ++ [.setIndicator s.cfg.statusFrameRx] } t)

/-- R193, with what R146 and R149 (inferences the spec marks as its own) say of the five operations together: addresses exchanged, type Echo Reply, both checksums over the bytes as they are after swap and type change with the field zeroed, every other byte unchanged, and on to TRANSMIT. Five operation steps of the model (log 6). -/
def Obligations.ProcessStepMakesTheReply : Prop :=
  ∀ s : State, AtStart .process s → 36 ≤ s.rxLen.toNat → s.rxLen.toNat ≤ 128 →
    ∃ t, Host.Core.run Sys2Proof.core 5 s = .next t ∧ AtStart .transmit t ∧
      SameEngine { s with mem := t.mem, csum := t.csum } t ∧
      t.readByte 26 ++ t.readByte 27 =
        checksum ((List.range 20).map (fun k => if k = 10 ∨ k = 11 then 0 else t.readByte (16 + k))) ∧
      t.csum = checksum ((List.range (s.rxLen.toNat - 36)).map
        (fun k => if k = 2 ∨ k = 3 then 0 else t.readByte (36 + k))) ∧
      t.readByte 38 ++ t.readByte 39 = t.csum ∧
      ∀ a, a ≠ 26 → a ≠ 27 → a ≠ 38 → a ≠ 39 → t.readByte a =
        if 2 ≤ a ∧ a < 8 then s.readByte (a + 6) else if 8 ≤ a ∧ a < 14 then s.readByte (a - 6)
        else if 28 ≤ a ∧ a < 32 then s.readByte (a + 4) else if 32 ≤ a ∧ a < 36 then s.readByte (a - 4)
        else if a = 36 then 0 else s.readByte a

/-- R194: a TRANSMIT step runs XMIT and goes to SETTLE; where XMIT raises, `state` stays (R213). -/
def Obligations.TransmitStepRunsXmit : Prop :=
  ∀ s : State, AtStart .transmit s → s.rxLen.toNat ≤ 128 →
    ∃ u t, exec .xmit s = .next u ∧ step s = .next t ∧ SameEngine u t ∧
      (t.halted = false → AtStart .settle t) ∧ (t.halted = true → t.state = .transmit)

/-- R195: a SETTLE step holds, sets the indicator to idle-after-process and goes to WAIT. Two operation steps of the model (log 6). -/
def Obligations.SettleStepReturnsToWait : Prop :=
  ∀ s : State, AtStart .settle s →
    ∃ t, Host.Core.run Sys2Proof.core 2 s = .next t ∧ AtStart .wait t ∧
      SameEngine { s with
        settleLeft := 0, ind := s.cfg.statusIdleDone
        trace := s.trace ++ [.hold s.cfg.settleDelay, .setIndicator s.cfg.statusIdleDone] } t

/-- R197: outside WAIT no step of the Control Loop polls or pops. The words the queue gains are those of the environment's move (log 4). -/
def Obligations.NoReceiveOutsideWait : Prop :=
  ∀ s t : State, IssuesLoop s → s.state ≠ .wait → step s = .next t →
    t.rxq = s.rxq ++ arrivingWords s.arrivals ∧
    ∃ es, t.trace = s.trace ++ es ∧ ∀ e ∈ es, (∀ b, e ≠ .rxReady b) ∧ (∀ x, e ≠ .rxPop x)

/-- R196: the engine stops stepping only when a fault flag is set: from every state of the Control Loop's invariant with none set, a step answers a next state. -/
def Obligations.EngineStepsUnlessAFaultIsSet : Prop :=
  ∀ s : State, LoopInv s → s.halted = false → ∃ t, step s = .next t

/-- R241's last clause: the Control Loop never writes STATUS_IDLE_WAIT; each step leaves `ind` or writes one of the other two codes, and emits no other indicator event. -/
def Obligations.LoopWritesOnlyTheOtherTwoCodes : Prop :=
  ∀ s t : State, IssuesLoop s → step s = .next t →
    (t.ind = s.ind ∨ t.ind = s.cfg.statusFrameRx ∨ t.ind = s.cfg.statusIdleDone) ∧
    ∃ es, t.trace = s.trace ++ es ∧
      ∀ c, .setIndicator c ∈ es → c = s.cfg.statusFrameRx ∨ c = s.cfg.statusIdleDone

/-- R198 for an oversize frame (an inference the spec marks as its own; the priority is R214's): one operation step (log 6), which is R191's one Control Loop step, drains it and comes back to WAIT, with no transmit and no indicator event. The words the queue gains are those of the environment's move (log 4). -/
def Obligations.OversizeFrameIsDrainedAndDropped : Prop :=
  ∀ (s : State) (len : Word) (ws rest : List Word), AtStart .wait s → s.rxReady = true →
    s.rxq = len :: (ws ++ rest) → ws.length = ((len.toNat + 7) / 8 + 3) / 4 →
    (len.toNat + 7) / 8 > 128 + s.cfg.oversizeSlack →
    ∃ t, step s = .next t ∧ AtStart .wait t ∧ t.rxq = rest ++ arrivingWords s.arrivals ∧ t.ind = s.ind ∧
      t.txq = s.txq ∧ t.trace = s.trace ++ .rxReady true :: .rxPop len :: ws.map .rxPop

/-- R198 for a foreign destination (an inference the spec marks as its own): two operation steps (log 6), which are two Control Loop steps of R199, no transmit, no indicator change. The byte at offset `2 + i` is that of the frame where the frame reaches it, else a stale one (R22). -/
def Obligations.ForeignFrameLeavesNoOutput : Prop :=
  ∀ (s : State) (len : Word) (ws rest : List Word), AtStart .wait s → s.rxReady = true →
    s.rxq = len :: (ws ++ rest) → ws.length = ((len.toNat + 7) / 8 + 3) / 4 →
    (len.toNat + 7) / 8 ≤ 128 + s.cfg.oversizeSlack →
    (∃ i < 6, (if 2 + i < 4 * ws.length then streamByte ws (2 + i) else s.readByte (2 + i)) ≠
      s.cfg.stationMac.toList.getD i 0) →
    ∃ t, Host.Core.run Sys2Proof.core 2 s = .next t ∧ AtStart .wait t ∧ t.cls = .notForUs ∧ t.ind = s.ind ∧
      t.txq = s.txq ∧ t.trace = s.trace ++ .rxReady true :: .rxPop len :: ws.map .rxPop

/-- R198 for a frame for the station that is no Echo Request (an inference the spec marks as its own): five operation steps (log 6), which are three Control Loop steps of R199, the three indicator and hold events, no transmit. -/
def Obligations.MatchedButOtherFrameIsSettled : Prop :=
  ∀ (s : State) (len : Word) (ws rest : List Word), AtStart .wait s → s.rxReady = true →
    s.rxq = len :: (ws ++ rest) → ws.length = ((len.toNat + 7) / 8 + 3) / 4 →
    (len.toNat + 7) / 8 ≤ 128 + s.cfg.oversizeSlack →
    let byte := fun a => if a < min (4 * ws.length) 128 then streamByte ws a else s.readByte a
    (∀ i < 6, byte (2 + i) = s.cfg.stationMac.toList.getD i 0) →
    ¬ (byte 14 = 0x08 ∧ byte 15 = 0x00 ∧ byte 25 = 1 ∧ byte 36 = 8) →
    ∃ t, Host.Core.run Sys2Proof.core 5 s = .next t ∧ AtStart .wait t ∧ t.ind = s.cfg.statusIdleDone ∧
      t.txq = s.txq ∧
      t.trace = s.trace ++ .rxReady true :: .rxPop len :: ws.map .rxPop ++
        [.setIndicator s.cfg.statusFrameRx, .hold s.cfg.settleDelay, .setIndicator s.cfg.statusIdleDone]

/-- R198 for an Echo Request that fits the buffer (an inference the spec marks as its own), with the reply's bytes (R87, R149): from WAIT with the whole frame queued, eleven operation steps (log 6), which are the five Control Loop steps of R199, come back to WAIT having emitted exactly the listed events; the words sent are the request's with both address pairs exchanged, type 0 and the two checksum fields refreshed; the reply's header sums to 0, and so does its ICMP message where the field lies inside the frame. -/
def Obligations.EchoRequestIsAnsweredByItsReply : Prop :=
  ∀ (s : State) (len : Word) (ws rest : List Word), AtStart .wait s → s.rxReady = true →
    s.rxq = len :: (ws ++ rest) → ws.length = ((len.toNat + 7) / 8 + 3) / 4 →
    (len.toNat + 7) / 8 ≤ 128 → 36 ≤ 4 * ws.length →
    (∀ i < 6, streamByte ws (2 + i) = s.cfg.stationMac.toList.getD i 0) →
    streamByte ws 14 = 0x08 → streamByte ws 15 = 0x00 → streamByte ws 25 = 1 →
    (if 36 < 4 * ws.length then streamByte ws 36 else s.readByte 36) = 8 →
    ∃ t sent, Host.Core.run Sys2Proof.core 11 s = .next t ∧ AtStart .wait t ∧ t.ind = s.cfg.statusIdleDone ∧
      t.txq = s.txq ++ len :: sent ∧
      t.trace = s.trace ++ .rxReady true :: .rxPop len :: ws.map .rxPop ++
        (.setIndicator s.cfg.statusFrameRx :: .txAnnounce len :: sent.map .txPush) ++
        [.hold s.cfg.settleDelay, .setIndicator s.cfg.statusIdleDone] ∧
      sent.length = ws.length ∧
      (∀ a, a < 4 * ws.length → a ≠ 26 → a ≠ 27 → a ≠ 38 → a ≠ 39 → streamByte sent a =
        if 2 ≤ a ∧ a < 8 then streamByte ws (a + 6) else if 8 ≤ a ∧ a < 14 then streamByte ws (a - 6)
        else if 28 ≤ a ∧ a < 32 then streamByte ws (a + 4) else if 32 ≤ a ∧ a < 36 then streamByte ws (a - 4)
        else if a = 36 then 0 else streamByte ws a) ∧
      checksum ((List.range 20).map (fun k => streamByte sent (16 + k))) = 0x0000 ∧
      (40 ≤ 4 * ws.length →
        checksum ((List.range (4 * ws.length - 36)).map (fun k => streamByte sent (36 + k))) = 0x0000)

/-! ## Faults (60_exceptions.md) -/

/-- R213: a step in which an operation raises leaves `state` unwritten and runs nothing more, and the engine takes no further step. -/
def Obligations.ARaisedFaultHaltsTheEngine : Prop :=
  (∀ s t : State, step s = .next t → t.halted = true → t.state = s.state ∧ t.pending = s.pending) ∧
  ∀ s : State, s.halted = true → step s = .fault .halted

/-- R212 with R145, R164 and R172: which operation raises which fault, exactly on what condition, and what it records; every other operation leaves the flags alone. RECV raises where the queue holds fewer words than the length word and the payload it claims. -/
def Obligations.EachFaultIsRaisedByItsOperation : Prop :=
  (∀ s t : State, exec .rxpop s = .next t →
    t.fault = if s.rxq = [] then { s.fault with rxUnderflow := true } else s.fault) ∧
  (∀ s t : State, exec .recv s = .next t →
    t.fault =
      if s.rxReady = true ∧ s.rxq.length < 1 + (((s.rxq.headD 0).toNat + 7) / 8 + 3) / 4
      then { s.fault with rxUnderflow := true } else s.fault) ∧
  (∀ s t : State, exec .icmpcsum s = .next t →
    t.fault = if s.rxLen.toNat < 36 then { s.fault with icmpShort := some s.rxLen } else s.fault) ∧
  (∀ s t : State, exec .xmit s = .next t →
    let announced := ((s.bitLen.toNat + 7) / 8 + 3) / 4
    let pushed := (s.rxLen.toNat + 3) / 4
    t.fault =
      if pushed = announced then s.fault
      else { s.fault with txMismatch := some (BitVec.ofNat 28 announced, BitVec.ofNat 28 pushed) }) ∧
  ∀ (i : Instr) (s t : State), i ∉ [.rxpop, .recv, .icmpcsum, .xmit] → exec i s = .next t → t.fault = s.fault

/-- R30: the flags are empty at reset, and no operation and no step clears one once set. -/
def Obligations.FaultFlagsAreSticky : Prop :=
  State.reset.fault = { rxUnderflow := false, icmpShort := none, txMismatch := none } ∧
  ∀ (i : Instr) (s t : State), exec i s = .next t ∨ step s = .next t →
    (s.fault.rxUnderflow = true → t.fault.rxUnderflow = true) ∧
    (s.fault.icmpShort.isSome = true → t.fault.icmpShort.isSome = true) ∧
    (s.fault.txMismatch.isSome = true → t.fault.txMismatch.isSome = true)

/-! ## State, environment and invariants (10_state.md, 70_reset_and_hazards.md) -/

/-- R31, R33 and R64 over every step: the trace only grows; the words its new events popped are exactly those taken from the head of the receive queue; the words they sent are exactly those the transmit queue gained; and the environment's words join at the tail. -/
def Obligations.TraceAndQueuesAgreeOverEveryStep : Prop :=
  ∀ s t : State, step s = .next t →
    ∃ es, t.trace = s.trace ++ es ∧ t.txq = s.txq ++ es.flatMap Event.sent ∧
      s.rxq ++ arrivingWords s.arrivals = es.flatMap Event.popped ++ t.rxq

/-- R29: no step writes the configuration. -/
def Obligations.ConfigurationIsReadOnly : Prop :=
  ∀ s t : State, step s = .next t → t.cfg = s.cfg

/-- The engine's data invariant (canonical buffer inside [0, 128), counts of the bit length, receive length at most 128 and a multiple of 4, a legal indicator code, no delay half done, transmit queue as the trace says, log 13) is kept by every step, whatever words are issued. -/
def Obligations.EveryStepKeepsDataInv : Prop :=
  ∀ s t : State, DataInv s → step s = .next t → DataInv t

/-- The data invariant and the Control Loop's hold right after reset. The zero registers are the model's choice (log 2). -/
def Obligations.ResetSatisfiesTheInvariants : Prop := LoopInv State.reset

/-- The Control Loop's invariant is kept by every step: it only ever issues the rest of its own state's operations, and each state rests on the decisions that lead to it (R190). -/
def Obligations.EveryStepKeepsLoopInv : Prop :=
  ∀ s t : State, LoopInv s → step s = .next t → LoopInv t

/-- R212's "RX_UNDERFLOW is unreachable when the environment keeps its duties" (R177), over one step: from a state that keeps the duties, a step of the Control Loop sets no RX_UNDERFLOW, and where the environment's move (log 4) keeps duties (1) and (2) over it, the duties are kept after it. -/
def Obligations.NoUnderflowWhileDutiesAreKept : Prop :=
  ∀ s t : State, IssuesLoop s → DutiesKept s → step s = .next t →
    t.fault.rxUnderflow = s.fault.rxUnderflow ∧ (DutiesOver s t → DutiesKept t)

/-- The same over a run of operation steps (log 6): from a state of the Control Loop's invariant that keeps the duties, as long as the environment keeps duties (1) and (2) over each step (R177), RX_UNDERFLOW is never set. An environment with no move left (log 4) keeps them over every step of the Control Loop, so the premise can be met for ever. -/
def Obligations.NoUnderflowInARunThatKeepsTheDuties : Prop :=
  (∀ (k : Nat) (s t : State), LoopInv s → DutiesKept s → EnvironmentKeepsDuties k s →
    Host.Core.run Sys2Proof.core k s = .next t → t.fault.rxUnderflow = s.fault.rxUnderflow ∧ DutiesKept t) ∧
  ∀ (k : Nat) (s : State), LoopInv s → DutiesKept s → s.arrivals = [] → EnvironmentKeepsDuties k s

/-- R36: the values reset leaves where the spec gives them; the registers it calls unspecified are not stated here (log 2). Every byte reads as INIT_BUF, and the configuration of the run keeps R8's bounds. -/
def Obligations.ResetLeavesTheListedValues : Prop :=
  (∀ a (h : a < 128), State.reset.readByte a = State.reset.cfg.initBuf[a]) ∧
  State.reset.state = .wait ∧ State.reset.ind = State.reset.cfg.statusIdleWait ∧ State.reset.settleLeft = 0 ∧
  State.reset.txExpect = 0 ∧ State.reset.txSent = 0 ∧ State.reset.halted = false ∧ State.reset.trace = [] ∧
  State.reset.cfg.Valid
end

