-- ==== Sys2Proof/Laws/State.lean ====
section
/-! SUPPORT. What each update of State does to each field: one lemma per field per update, so that no later proof unfolds a record update. -/

namespace Sys2Proof.Machine

/-! ## emit -/

@[simp] theorem State.emit_cfg (s : State) (e : Event) : (s.emit e).cfg = s.cfg := rfl
@[simp] theorem State.emit_mem (s : State) (e : Event) : (s.emit e).mem = s.mem := rfl
@[simp] theorem State.emit_state (s : State) (e : Event) : (s.emit e).state = s.state := rfl
@[simp] theorem State.emit_pending (s : State) (e : Event) : (s.emit e).pending = s.pending := rfl
@[simp] theorem State.emit_ready (s : State) (e : Event) : (s.emit e).ready = s.ready := rfl
@[simp] theorem State.emit_w (s : State) (e : Event) : (s.emit e).w = s.w := rfl
@[simp] theorem State.emit_bitLen (s : State) (e : Event) : (s.emit e).bitLen = s.bitLen := rfl
@[simp] theorem State.emit_byteCount (s : State) (e : Event) : (s.emit e).byteCount = s.byteCount := rfl
@[simp] theorem State.emit_wordCount (s : State) (e : Event) : (s.emit e).wordCount = s.wordCount := rfl
@[simp] theorem State.emit_rxLen (s : State) (e : Event) : (s.emit e).rxLen = s.rxLen := rfl
@[simp] theorem State.emit_rxOut (s : State) (e : Event) : (s.emit e).rxOut = s.rxOut := rfl
@[simp] theorem State.emit_cls (s : State) (e : Event) : (s.emit e).cls = s.cls := rfl
@[simp] theorem State.emit_csum (s : State) (e : Event) : (s.emit e).csum = s.csum := rfl
@[simp] theorem State.emit_ind (s : State) (e : Event) : (s.emit e).ind = s.ind := rfl
@[simp] theorem State.emit_settleLeft (s : State) (e : Event) : (s.emit e).settleLeft = s.settleLeft := rfl
@[simp] theorem State.emit_txExpect (s : State) (e : Event) : (s.emit e).txExpect = s.txExpect := rfl
@[simp] theorem State.emit_txSent (s : State) (e : Event) : (s.emit e).txSent = s.txSent := rfl
@[simp] theorem State.emit_fault (s : State) (e : Event) : (s.emit e).fault = s.fault := rfl
@[simp] theorem State.emit_rxq (s : State) (e : Event) : (s.emit e).rxq = s.rxq := rfl
@[simp] theorem State.emit_rxReady (s : State) (e : Event) : (s.emit e).rxReady = s.rxReady := rfl
@[simp] theorem State.emit_arrivals (s : State) (e : Event) : (s.emit e).arrivals = s.arrivals := rfl
@[simp] theorem State.emit_txq (s : State) (e : Event) : (s.emit e).txq = s.txq := rfl
@[simp] theorem State.emit_trace (s : State) (e : Event) : (s.emit e).trace = s.trace ++ [e] := rfl
@[simp] theorem State.emit_draws (s : State) (e : Event) : (s.emit e).draws = s.draws := rfl

/-! ## raise -/

@[simp] theorem State.raise_cfg (s : State) (f : EngineFault) : (s.raise f).cfg = s.cfg := rfl
@[simp] theorem State.raise_mem (s : State) (f : EngineFault) : (s.raise f).mem = s.mem := rfl
@[simp] theorem State.raise_state (s : State) (f : EngineFault) : (s.raise f).state = s.state := rfl
@[simp] theorem State.raise_pending (s : State) (f : EngineFault) : (s.raise f).pending = s.pending := rfl
@[simp] theorem State.raise_ready (s : State) (f : EngineFault) : (s.raise f).ready = s.ready := rfl
@[simp] theorem State.raise_w (s : State) (f : EngineFault) : (s.raise f).w = s.w := rfl
@[simp] theorem State.raise_bitLen (s : State) (f : EngineFault) : (s.raise f).bitLen = s.bitLen := rfl
@[simp] theorem State.raise_byteCount (s : State) (f : EngineFault) : (s.raise f).byteCount = s.byteCount := rfl
@[simp] theorem State.raise_wordCount (s : State) (f : EngineFault) : (s.raise f).wordCount = s.wordCount := rfl
@[simp] theorem State.raise_rxLen (s : State) (f : EngineFault) : (s.raise f).rxLen = s.rxLen := rfl
@[simp] theorem State.raise_rxOut (s : State) (f : EngineFault) : (s.raise f).rxOut = s.rxOut := rfl
@[simp] theorem State.raise_cls (s : State) (f : EngineFault) : (s.raise f).cls = s.cls := rfl
@[simp] theorem State.raise_csum (s : State) (f : EngineFault) : (s.raise f).csum = s.csum := rfl
@[simp] theorem State.raise_ind (s : State) (f : EngineFault) : (s.raise f).ind = s.ind := rfl
@[simp] theorem State.raise_settleLeft (s : State) (f : EngineFault) : (s.raise f).settleLeft = s.settleLeft := rfl
@[simp] theorem State.raise_txExpect (s : State) (f : EngineFault) : (s.raise f).txExpect = s.txExpect := rfl
@[simp] theorem State.raise_txSent (s : State) (f : EngineFault) : (s.raise f).txSent = s.txSent := rfl
@[simp] theorem State.raise_fault (s : State) (f : EngineFault) : (s.raise f).fault = s.fault.add f := rfl
@[simp] theorem State.raise_rxq (s : State) (f : EngineFault) : (s.raise f).rxq = s.rxq := rfl
@[simp] theorem State.raise_rxReady (s : State) (f : EngineFault) : (s.raise f).rxReady = s.rxReady := rfl
@[simp] theorem State.raise_arrivals (s : State) (f : EngineFault) : (s.raise f).arrivals = s.arrivals := rfl
@[simp] theorem State.raise_txq (s : State) (f : EngineFault) : (s.raise f).txq = s.txq := rfl
@[simp] theorem State.raise_trace (s : State) (f : EngineFault) : (s.raise f).trace = s.trace := rfl
@[simp] theorem State.raise_draws (s : State) (f : EngineFault) : (s.raise f).draws = s.draws := rfl

/-! ## writeByte -/

@[simp] theorem State.writeByte_cfg (s : State) (a : Nat) (v : Byte) : (s.writeByte a v).cfg = s.cfg := rfl
@[simp] theorem State.writeByte_mem (s : State) (a : Nat) (v : Byte) : (s.writeByte a v).mem = if v = initByte s.cfg a then Memory.erase a s.mem else Memory.put a v s.mem := rfl
@[simp] theorem State.writeByte_state (s : State) (a : Nat) (v : Byte) : (s.writeByte a v).state = s.state := rfl
@[simp] theorem State.writeByte_pending (s : State) (a : Nat) (v : Byte) : (s.writeByte a v).pending = s.pending := rfl
@[simp] theorem State.writeByte_ready (s : State) (a : Nat) (v : Byte) : (s.writeByte a v).ready = s.ready := rfl
@[simp] theorem State.writeByte_w (s : State) (a : Nat) (v : Byte) : (s.writeByte a v).w = s.w := rfl
@[simp] theorem State.writeByte_bitLen (s : State) (a : Nat) (v : Byte) : (s.writeByte a v).bitLen = s.bitLen := rfl
@[simp] theorem State.writeByte_byteCount (s : State) (a : Nat) (v : Byte) : (s.writeByte a v).byteCount = s.byteCount := rfl
@[simp] theorem State.writeByte_wordCount (s : State) (a : Nat) (v : Byte) : (s.writeByte a v).wordCount = s.wordCount := rfl
@[simp] theorem State.writeByte_rxLen (s : State) (a : Nat) (v : Byte) : (s.writeByte a v).rxLen = s.rxLen := rfl
@[simp] theorem State.writeByte_rxOut (s : State) (a : Nat) (v : Byte) : (s.writeByte a v).rxOut = s.rxOut := rfl
@[simp] theorem State.writeByte_cls (s : State) (a : Nat) (v : Byte) : (s.writeByte a v).cls = s.cls := rfl
@[simp] theorem State.writeByte_csum (s : State) (a : Nat) (v : Byte) : (s.writeByte a v).csum = s.csum := rfl
@[simp] theorem State.writeByte_ind (s : State) (a : Nat) (v : Byte) : (s.writeByte a v).ind = s.ind := rfl
@[simp] theorem State.writeByte_settleLeft (s : State) (a : Nat) (v : Byte) : (s.writeByte a v).settleLeft = s.settleLeft := rfl
@[simp] theorem State.writeByte_txExpect (s : State) (a : Nat) (v : Byte) : (s.writeByte a v).txExpect = s.txExpect := rfl
@[simp] theorem State.writeByte_txSent (s : State) (a : Nat) (v : Byte) : (s.writeByte a v).txSent = s.txSent := rfl
@[simp] theorem State.writeByte_fault (s : State) (a : Nat) (v : Byte) : (s.writeByte a v).fault = s.fault := rfl
@[simp] theorem State.writeByte_rxq (s : State) (a : Nat) (v : Byte) : (s.writeByte a v).rxq = s.rxq := rfl
@[simp] theorem State.writeByte_rxReady (s : State) (a : Nat) (v : Byte) : (s.writeByte a v).rxReady = s.rxReady := rfl
@[simp] theorem State.writeByte_arrivals (s : State) (a : Nat) (v : Byte) : (s.writeByte a v).arrivals = s.arrivals := rfl
@[simp] theorem State.writeByte_txq (s : State) (a : Nat) (v : Byte) : (s.writeByte a v).txq = s.txq := rfl
@[simp] theorem State.writeByte_trace (s : State) (a : Nat) (v : Byte) : (s.writeByte a v).trace = s.trace := rfl
@[simp] theorem State.writeByte_draws (s : State) (a : Nat) (v : Byte) : (s.writeByte a v).draws = s.draws := rfl

/-! ## sumRange -/

@[simp] theorem State.sumRange_cfg (s : State) (off len : Nat) : (s.sumRange off len).cfg = s.cfg := rfl
@[simp] theorem State.sumRange_mem (s : State) (off len : Nat) : (s.sumRange off len).mem = s.mem := rfl
@[simp] theorem State.sumRange_state (s : State) (off len : Nat) : (s.sumRange off len).state = s.state := rfl
@[simp] theorem State.sumRange_pending (s : State) (off len : Nat) : (s.sumRange off len).pending = s.pending := rfl
@[simp] theorem State.sumRange_ready (s : State) (off len : Nat) : (s.sumRange off len).ready = s.ready := rfl
@[simp] theorem State.sumRange_w (s : State) (off len : Nat) : (s.sumRange off len).w = s.w := rfl
@[simp] theorem State.sumRange_bitLen (s : State) (off len : Nat) : (s.sumRange off len).bitLen = s.bitLen := rfl
@[simp] theorem State.sumRange_byteCount (s : State) (off len : Nat) : (s.sumRange off len).byteCount = s.byteCount := rfl
@[simp] theorem State.sumRange_wordCount (s : State) (off len : Nat) : (s.sumRange off len).wordCount = s.wordCount := rfl
@[simp] theorem State.sumRange_rxLen (s : State) (off len : Nat) : (s.sumRange off len).rxLen = s.rxLen := rfl
@[simp] theorem State.sumRange_rxOut (s : State) (off len : Nat) : (s.sumRange off len).rxOut = s.rxOut := rfl
@[simp] theorem State.sumRange_cls (s : State) (off len : Nat) : (s.sumRange off len).cls = s.cls := rfl
@[simp] theorem State.sumRange_csum (s : State) (off len : Nat) : (s.sumRange off len).csum = checksum (s.readBytes off len) := rfl
@[simp] theorem State.sumRange_ind (s : State) (off len : Nat) : (s.sumRange off len).ind = s.ind := rfl
@[simp] theorem State.sumRange_settleLeft (s : State) (off len : Nat) : (s.sumRange off len).settleLeft = s.settleLeft := rfl
@[simp] theorem State.sumRange_txExpect (s : State) (off len : Nat) : (s.sumRange off len).txExpect = s.txExpect := rfl
@[simp] theorem State.sumRange_txSent (s : State) (off len : Nat) : (s.sumRange off len).txSent = s.txSent := rfl
@[simp] theorem State.sumRange_fault (s : State) (off len : Nat) : (s.sumRange off len).fault = s.fault := rfl
@[simp] theorem State.sumRange_rxq (s : State) (off len : Nat) : (s.sumRange off len).rxq = s.rxq := rfl
@[simp] theorem State.sumRange_rxReady (s : State) (off len : Nat) : (s.sumRange off len).rxReady = s.rxReady := rfl
@[simp] theorem State.sumRange_arrivals (s : State) (off len : Nat) : (s.sumRange off len).arrivals = s.arrivals := rfl
@[simp] theorem State.sumRange_txq (s : State) (off len : Nat) : (s.sumRange off len).txq = s.txq := rfl
@[simp] theorem State.sumRange_trace (s : State) (off len : Nat) : (s.sumRange off len).trace = s.trace := rfl
@[simp] theorem State.sumRange_draws (s : State) (off len : Nat) : (s.sumRange off len).draws = s.draws := rfl

/-! ## pollReady -/

@[simp] theorem State.pollReady_cfg (s : State) : s.pollReady.cfg = s.cfg := rfl
@[simp] theorem State.pollReady_mem (s : State) : s.pollReady.mem = s.mem := rfl
@[simp] theorem State.pollReady_state (s : State) : s.pollReady.state = s.state := rfl
@[simp] theorem State.pollReady_pending (s : State) : s.pollReady.pending = s.pending := rfl
@[simp] theorem State.pollReady_ready (s : State) : s.pollReady.ready = s.rxReady := rfl
@[simp] theorem State.pollReady_w (s : State) : s.pollReady.w = s.w := rfl
@[simp] theorem State.pollReady_bitLen (s : State) : s.pollReady.bitLen = s.bitLen := rfl
@[simp] theorem State.pollReady_byteCount (s : State) : s.pollReady.byteCount = s.byteCount := rfl
@[simp] theorem State.pollReady_wordCount (s : State) : s.pollReady.wordCount = s.wordCount := rfl
@[simp] theorem State.pollReady_rxLen (s : State) : s.pollReady.rxLen = s.rxLen := rfl
@[simp] theorem State.pollReady_rxOut (s : State) : s.pollReady.rxOut = s.rxOut := rfl
@[simp] theorem State.pollReady_cls (s : State) : s.pollReady.cls = s.cls := rfl
@[simp] theorem State.pollReady_csum (s : State) : s.pollReady.csum = s.csum := rfl
@[simp] theorem State.pollReady_ind (s : State) : s.pollReady.ind = s.ind := rfl
@[simp] theorem State.pollReady_settleLeft (s : State) : s.pollReady.settleLeft = s.settleLeft := rfl
@[simp] theorem State.pollReady_txExpect (s : State) : s.pollReady.txExpect = s.txExpect := rfl
@[simp] theorem State.pollReady_txSent (s : State) : s.pollReady.txSent = s.txSent := rfl
@[simp] theorem State.pollReady_fault (s : State) : s.pollReady.fault = s.fault := rfl
@[simp] theorem State.pollReady_rxq (s : State) : s.pollReady.rxq = s.rxq := rfl
@[simp] theorem State.pollReady_rxReady (s : State) : s.pollReady.rxReady = s.rxReady := rfl
@[simp] theorem State.pollReady_arrivals (s : State) : s.pollReady.arrivals = s.arrivals := rfl
@[simp] theorem State.pollReady_txq (s : State) : s.pollReady.txq = s.txq := rfl
@[simp] theorem State.pollReady_trace (s : State) : s.pollReady.trace = s.trace ++ [.rxReady s.rxReady] := rfl
@[simp] theorem State.pollReady_draws (s : State) : s.pollReady.draws = s.draws := rfl

/-! ## announce -/

@[simp] theorem State.announce_cfg (s : State) : s.announce.cfg = s.cfg := rfl
@[simp] theorem State.announce_mem (s : State) : s.announce.mem = s.mem := rfl
@[simp] theorem State.announce_state (s : State) : s.announce.state = s.state := rfl
@[simp] theorem State.announce_pending (s : State) : s.announce.pending = s.pending := rfl
@[simp] theorem State.announce_ready (s : State) : s.announce.ready = s.ready := rfl
@[simp] theorem State.announce_w (s : State) : s.announce.w = s.w := rfl
@[simp] theorem State.announce_bitLen (s : State) : s.announce.bitLen = s.bitLen := rfl
@[simp] theorem State.announce_byteCount (s : State) : s.announce.byteCount = s.byteCount := rfl
@[simp] theorem State.announce_wordCount (s : State) : s.announce.wordCount = s.wordCount := rfl
@[simp] theorem State.announce_rxLen (s : State) : s.announce.rxLen = s.rxLen := rfl
@[simp] theorem State.announce_rxOut (s : State) : s.announce.rxOut = s.rxOut := rfl
@[simp] theorem State.announce_cls (s : State) : s.announce.cls = s.cls := rfl
@[simp] theorem State.announce_csum (s : State) : s.announce.csum = s.csum := rfl
@[simp] theorem State.announce_ind (s : State) : s.announce.ind = s.ind := rfl
@[simp] theorem State.announce_settleLeft (s : State) : s.announce.settleLeft = s.settleLeft := rfl
@[simp] theorem State.announce_txExpect (s : State) : s.announce.txExpect = payloadWords s.bitLen := rfl
@[simp] theorem State.announce_txSent (s : State) : s.announce.txSent = 0 := rfl
@[simp] theorem State.announce_fault (s : State) : s.announce.fault = s.fault := rfl
@[simp] theorem State.announce_rxq (s : State) : s.announce.rxq = s.rxq := rfl
@[simp] theorem State.announce_rxReady (s : State) : s.announce.rxReady = s.rxReady := rfl
@[simp] theorem State.announce_arrivals (s : State) : s.announce.arrivals = s.arrivals := rfl
@[simp] theorem State.announce_txq (s : State) : s.announce.txq = s.txq ++ [s.bitLen] := rfl
@[simp] theorem State.announce_trace (s : State) : s.announce.trace = s.trace ++ [.txAnnounce s.bitLen] := rfl
@[simp] theorem State.announce_draws (s : State) : s.announce.draws = s.draws := rfl

/-! ## pushWord -/

@[simp] theorem State.pushWord_cfg (s : State) : s.pushWord.cfg = s.cfg := rfl
@[simp] theorem State.pushWord_mem (s : State) : s.pushWord.mem = s.mem := rfl
@[simp] theorem State.pushWord_state (s : State) : s.pushWord.state = s.state := rfl
@[simp] theorem State.pushWord_pending (s : State) : s.pushWord.pending = s.pending := rfl
@[simp] theorem State.pushWord_ready (s : State) : s.pushWord.ready = s.ready := rfl
@[simp] theorem State.pushWord_w (s : State) : s.pushWord.w = s.w := rfl
@[simp] theorem State.pushWord_bitLen (s : State) : s.pushWord.bitLen = s.bitLen := rfl
@[simp] theorem State.pushWord_byteCount (s : State) : s.pushWord.byteCount = s.byteCount := rfl
@[simp] theorem State.pushWord_wordCount (s : State) : s.pushWord.wordCount = s.wordCount := rfl
@[simp] theorem State.pushWord_rxLen (s : State) : s.pushWord.rxLen = s.rxLen := rfl
@[simp] theorem State.pushWord_rxOut (s : State) : s.pushWord.rxOut = s.rxOut := rfl
@[simp] theorem State.pushWord_cls (s : State) : s.pushWord.cls = s.cls := rfl
@[simp] theorem State.pushWord_csum (s : State) : s.pushWord.csum = s.csum := rfl
@[simp] theorem State.pushWord_ind (s : State) : s.pushWord.ind = s.ind := rfl
@[simp] theorem State.pushWord_settleLeft (s : State) : s.pushWord.settleLeft = s.settleLeft := rfl
@[simp] theorem State.pushWord_txExpect (s : State) : s.pushWord.txExpect = s.txExpect := rfl
@[simp] theorem State.pushWord_txSent (s : State) : s.pushWord.txSent = s.txSentNext := rfl
@[simp] theorem State.pushWord_fault (s : State) : s.pushWord.fault = s.fault := rfl
@[simp] theorem State.pushWord_rxq (s : State) : s.pushWord.rxq = s.rxq := rfl
@[simp] theorem State.pushWord_rxReady (s : State) : s.pushWord.rxReady = s.rxReady := rfl
@[simp] theorem State.pushWord_arrivals (s : State) : s.pushWord.arrivals = s.arrivals := rfl
@[simp] theorem State.pushWord_txq (s : State) : s.pushWord.txq = s.txq ++ [s.w] := rfl
@[simp] theorem State.pushWord_trace (s : State) : s.pushWord.trace = s.trace ++ [.txPush s.w] := rfl
@[simp] theorem State.pushWord_draws (s : State) : s.pushWord.draws = s.drawsNext := rfl

/-! ## setIndicator -/

@[simp] theorem State.setIndicator_cfg (s : State) (c : Half) : (s.setIndicator c).cfg = s.cfg := rfl
@[simp] theorem State.setIndicator_mem (s : State) (c : Half) : (s.setIndicator c).mem = s.mem := rfl
@[simp] theorem State.setIndicator_state (s : State) (c : Half) : (s.setIndicator c).state = s.state := rfl
@[simp] theorem State.setIndicator_pending (s : State) (c : Half) : (s.setIndicator c).pending = s.pending := rfl
@[simp] theorem State.setIndicator_ready (s : State) (c : Half) : (s.setIndicator c).ready = s.ready := rfl
@[simp] theorem State.setIndicator_w (s : State) (c : Half) : (s.setIndicator c).w = s.w := rfl
@[simp] theorem State.setIndicator_bitLen (s : State) (c : Half) : (s.setIndicator c).bitLen = s.bitLen := rfl
@[simp] theorem State.setIndicator_byteCount (s : State) (c : Half) : (s.setIndicator c).byteCount = s.byteCount := rfl
@[simp] theorem State.setIndicator_wordCount (s : State) (c : Half) : (s.setIndicator c).wordCount = s.wordCount := rfl
@[simp] theorem State.setIndicator_rxLen (s : State) (c : Half) : (s.setIndicator c).rxLen = s.rxLen := rfl
@[simp] theorem State.setIndicator_rxOut (s : State) (c : Half) : (s.setIndicator c).rxOut = s.rxOut := rfl
@[simp] theorem State.setIndicator_cls (s : State) (c : Half) : (s.setIndicator c).cls = s.cls := rfl
@[simp] theorem State.setIndicator_csum (s : State) (c : Half) : (s.setIndicator c).csum = s.csum := rfl
@[simp] theorem State.setIndicator_ind (s : State) (c : Half) : (s.setIndicator c).ind = c := rfl
@[simp] theorem State.setIndicator_settleLeft (s : State) (c : Half) : (s.setIndicator c).settleLeft = s.settleLeft := rfl
@[simp] theorem State.setIndicator_txExpect (s : State) (c : Half) : (s.setIndicator c).txExpect = s.txExpect := rfl
@[simp] theorem State.setIndicator_txSent (s : State) (c : Half) : (s.setIndicator c).txSent = s.txSent := rfl
@[simp] theorem State.setIndicator_fault (s : State) (c : Half) : (s.setIndicator c).fault = s.fault := rfl
@[simp] theorem State.setIndicator_rxq (s : State) (c : Half) : (s.setIndicator c).rxq = s.rxq := rfl
@[simp] theorem State.setIndicator_rxReady (s : State) (c : Half) : (s.setIndicator c).rxReady = s.rxReady := rfl
@[simp] theorem State.setIndicator_arrivals (s : State) (c : Half) : (s.setIndicator c).arrivals = s.arrivals := rfl
@[simp] theorem State.setIndicator_txq (s : State) (c : Half) : (s.setIndicator c).txq = s.txq := rfl
@[simp] theorem State.setIndicator_trace (s : State) (c : Half) : (s.setIndicator c).trace = s.trace ++ [.setIndicator c] := rfl
@[simp] theorem State.setIndicator_draws (s : State) (c : Half) : (s.setIndicator c).draws = s.draws := rfl

/-! ## setLength -/

@[simp] theorem State.setLength_cfg (s : State) (len : Word) : (s.setLength len).cfg = s.cfg := rfl
@[simp] theorem State.setLength_mem (s : State) (len : Word) : (s.setLength len).mem = s.mem := rfl
@[simp] theorem State.setLength_state (s : State) (len : Word) : (s.setLength len).state = s.state := rfl
@[simp] theorem State.setLength_pending (s : State) (len : Word) : (s.setLength len).pending = s.pending := rfl
@[simp] theorem State.setLength_ready (s : State) (len : Word) : (s.setLength len).ready = s.ready := rfl
@[simp] theorem State.setLength_w (s : State) (len : Word) : (s.setLength len).w = s.w := rfl
@[simp] theorem State.setLength_bitLen (s : State) (len : Word) : (s.setLength len).bitLen = len := rfl
@[simp] theorem State.setLength_byteCount (s : State) (len : Word) : (s.setLength len).byteCount = byteCountOf len := rfl
@[simp] theorem State.setLength_wordCount (s : State) (len : Word) : (s.setLength len).wordCount = payloadWords len := rfl
@[simp] theorem State.setLength_rxLen (s : State) (len : Word) : (s.setLength len).rxLen = s.rxLen := rfl
@[simp] theorem State.setLength_rxOut (s : State) (len : Word) : (s.setLength len).rxOut = s.rxOut := rfl
@[simp] theorem State.setLength_cls (s : State) (len : Word) : (s.setLength len).cls = s.cls := rfl
@[simp] theorem State.setLength_csum (s : State) (len : Word) : (s.setLength len).csum = s.csum := rfl
@[simp] theorem State.setLength_ind (s : State) (len : Word) : (s.setLength len).ind = s.ind := rfl
@[simp] theorem State.setLength_settleLeft (s : State) (len : Word) : (s.setLength len).settleLeft = s.settleLeft := rfl
@[simp] theorem State.setLength_txExpect (s : State) (len : Word) : (s.setLength len).txExpect = s.txExpect := rfl
@[simp] theorem State.setLength_txSent (s : State) (len : Word) : (s.setLength len).txSent = s.txSent := rfl
@[simp] theorem State.setLength_fault (s : State) (len : Word) : (s.setLength len).fault = s.fault := rfl
@[simp] theorem State.setLength_rxq (s : State) (len : Word) : (s.setLength len).rxq = s.rxq := rfl
@[simp] theorem State.setLength_rxReady (s : State) (len : Word) : (s.setLength len).rxReady = s.rxReady := rfl
@[simp] theorem State.setLength_arrivals (s : State) (len : Word) : (s.setLength len).arrivals = s.arrivals := rfl
@[simp] theorem State.setLength_txq (s : State) (len : Word) : (s.setLength len).txq = s.txq := rfl
@[simp] theorem State.setLength_trace (s : State) (len : Word) : (s.setLength len).trace = s.trace := rfl
@[simp] theorem State.setLength_draws (s : State) (len : Word) : (s.setLength len).draws = s.draws := rfl

/-! ## closeFrame -/

@[simp] theorem State.closeFrame_cfg (s : State) (n : Nat) : (s.closeFrame n).cfg = s.cfg := rfl
@[simp] theorem State.closeFrame_mem (s : State) (n : Nat) : (s.closeFrame n).mem = s.mem := rfl
@[simp] theorem State.closeFrame_state (s : State) (n : Nat) : (s.closeFrame n).state = s.state := rfl
@[simp] theorem State.closeFrame_pending (s : State) (n : Nat) : (s.closeFrame n).pending = s.pending := rfl
@[simp] theorem State.closeFrame_ready (s : State) (n : Nat) : (s.closeFrame n).ready = s.ready := rfl
@[simp] theorem State.closeFrame_w (s : State) (n : Nat) : (s.closeFrame n).w = s.w := rfl
@[simp] theorem State.closeFrame_bitLen (s : State) (n : Nat) : (s.closeFrame n).bitLen = s.bitLen := rfl
@[simp] theorem State.closeFrame_byteCount (s : State) (n : Nat) : (s.closeFrame n).byteCount = s.byteCount := rfl
@[simp] theorem State.closeFrame_wordCount (s : State) (n : Nat) : (s.closeFrame n).wordCount = s.wordCount := rfl
@[simp] theorem State.closeFrame_rxLen (s : State) (n : Nat) : (s.closeFrame n).rxLen = BitVec.ofNat 8 n := rfl
@[simp] theorem State.closeFrame_rxOut (s : State) (n : Nat) : (s.closeFrame n).rxOut = frameOutcome s.cfg s.byteCount := rfl
@[simp] theorem State.closeFrame_cls (s : State) (n : Nat) : (s.closeFrame n).cls = s.cls := rfl
@[simp] theorem State.closeFrame_csum (s : State) (n : Nat) : (s.closeFrame n).csum = s.csum := rfl
@[simp] theorem State.closeFrame_ind (s : State) (n : Nat) : (s.closeFrame n).ind = s.ind := rfl
@[simp] theorem State.closeFrame_settleLeft (s : State) (n : Nat) : (s.closeFrame n).settleLeft = s.settleLeft := rfl
@[simp] theorem State.closeFrame_txExpect (s : State) (n : Nat) : (s.closeFrame n).txExpect = s.txExpect := rfl
@[simp] theorem State.closeFrame_txSent (s : State) (n : Nat) : (s.closeFrame n).txSent = s.txSent := rfl
@[simp] theorem State.closeFrame_fault (s : State) (n : Nat) : (s.closeFrame n).fault = s.fault := rfl
@[simp] theorem State.closeFrame_rxq (s : State) (n : Nat) : (s.closeFrame n).rxq = s.rxq := rfl
@[simp] theorem State.closeFrame_rxReady (s : State) (n : Nat) : (s.closeFrame n).rxReady = s.rxReady := rfl
@[simp] theorem State.closeFrame_arrivals (s : State) (n : Nat) : (s.closeFrame n).arrivals = s.arrivals := rfl
@[simp] theorem State.closeFrame_txq (s : State) (n : Nat) : (s.closeFrame n).txq = s.txq := rfl
@[simp] theorem State.closeFrame_trace (s : State) (n : Nat) : (s.closeFrame n).trace = s.trace := rfl
@[simp] theorem State.closeFrame_draws (s : State) (n : Nat) : (s.closeFrame n).draws = s.draws := rfl

/-! ## enter -/

@[simp] theorem State.enter_cfg (s : State) (q : LoopState) : (s.enter q).cfg = s.cfg := rfl
@[simp] theorem State.enter_mem (s : State) (q : LoopState) : (s.enter q).mem = s.mem := rfl
@[simp] theorem State.enter_state (s : State) (q : LoopState) : (s.enter q).state = q := rfl
@[simp] theorem State.enter_pending (s : State) (q : LoopState) : (s.enter q).pending = loopWords q := rfl
@[simp] theorem State.enter_ready (s : State) (q : LoopState) : (s.enter q).ready = s.ready := rfl
@[simp] theorem State.enter_w (s : State) (q : LoopState) : (s.enter q).w = s.w := rfl
@[simp] theorem State.enter_bitLen (s : State) (q : LoopState) : (s.enter q).bitLen = s.bitLen := rfl
@[simp] theorem State.enter_byteCount (s : State) (q : LoopState) : (s.enter q).byteCount = s.byteCount := rfl
@[simp] theorem State.enter_wordCount (s : State) (q : LoopState) : (s.enter q).wordCount = s.wordCount := rfl
@[simp] theorem State.enter_rxLen (s : State) (q : LoopState) : (s.enter q).rxLen = s.rxLen := rfl
@[simp] theorem State.enter_rxOut (s : State) (q : LoopState) : (s.enter q).rxOut = s.rxOut := rfl
@[simp] theorem State.enter_cls (s : State) (q : LoopState) : (s.enter q).cls = s.cls := rfl
@[simp] theorem State.enter_csum (s : State) (q : LoopState) : (s.enter q).csum = s.csum := rfl
@[simp] theorem State.enter_ind (s : State) (q : LoopState) : (s.enter q).ind = s.ind := rfl
@[simp] theorem State.enter_settleLeft (s : State) (q : LoopState) : (s.enter q).settleLeft = s.settleLeft := rfl
@[simp] theorem State.enter_txExpect (s : State) (q : LoopState) : (s.enter q).txExpect = s.txExpect := rfl
@[simp] theorem State.enter_txSent (s : State) (q : LoopState) : (s.enter q).txSent = s.txSent := rfl
@[simp] theorem State.enter_fault (s : State) (q : LoopState) : (s.enter q).fault = s.fault := rfl
@[simp] theorem State.enter_rxq (s : State) (q : LoopState) : (s.enter q).rxq = s.rxq := rfl
@[simp] theorem State.enter_rxReady (s : State) (q : LoopState) : (s.enter q).rxReady = s.rxReady := rfl
@[simp] theorem State.enter_arrivals (s : State) (q : LoopState) : (s.enter q).arrivals = s.arrivals := rfl
@[simp] theorem State.enter_txq (s : State) (q : LoopState) : (s.enter q).txq = s.txq := rfl
@[simp] theorem State.enter_trace (s : State) (q : LoopState) : (s.enter q).trace = s.trace := rfl
@[simp] theorem State.enter_draws (s : State) (q : LoopState) : (s.enter q).draws = s.draws := rfl

/-! ## environment -/

@[simp] theorem State.environment_cfg (s : State) : s.environment.cfg = s.cfg := rfl
@[simp] theorem State.environment_mem (s : State) : s.environment.mem = s.mem := rfl
@[simp] theorem State.environment_state (s : State) : s.environment.state = s.state := rfl
@[simp] theorem State.environment_pending (s : State) : s.environment.pending = s.pending := rfl
@[simp] theorem State.environment_ready (s : State) : s.environment.ready = s.ready := rfl
@[simp] theorem State.environment_w (s : State) : s.environment.w = s.w := rfl
@[simp] theorem State.environment_bitLen (s : State) : s.environment.bitLen = s.bitLen := rfl
@[simp] theorem State.environment_byteCount (s : State) : s.environment.byteCount = s.byteCount := rfl
@[simp] theorem State.environment_wordCount (s : State) : s.environment.wordCount = s.wordCount := rfl
@[simp] theorem State.environment_rxLen (s : State) : s.environment.rxLen = s.rxLen := rfl
@[simp] theorem State.environment_rxOut (s : State) : s.environment.rxOut = s.rxOut := rfl
@[simp] theorem State.environment_cls (s : State) : s.environment.cls = s.cls := rfl
@[simp] theorem State.environment_csum (s : State) : s.environment.csum = s.csum := rfl
@[simp] theorem State.environment_ind (s : State) : s.environment.ind = s.ind := rfl
@[simp] theorem State.environment_settleLeft (s : State) : s.environment.settleLeft = s.settleLeft := rfl
@[simp] theorem State.environment_txExpect (s : State) : s.environment.txExpect = s.txExpect := rfl
@[simp] theorem State.environment_txSent (s : State) : s.environment.txSent = s.txSent := rfl
@[simp] theorem State.environment_fault (s : State) : s.environment.fault = s.fault := rfl
@[simp] theorem State.environment_rxq (s : State) : s.environment.rxq = s.rxq ++ arrivingWords s.arrivals := rfl
@[simp] theorem State.environment_rxReady (s : State) : s.environment.rxReady = presentedReady (s.rxq ++ arrivingWords s.arrivals) s.arrivals := rfl
@[simp] theorem State.environment_arrivals (s : State) : s.environment.arrivals = s.arrivals.tail := rfl
@[simp] theorem State.environment_txq (s : State) : s.environment.txq = s.txq := rfl
@[simp] theorem State.environment_trace (s : State) : s.environment.trace = s.trace := rfl
@[simp] theorem State.environment_draws (s : State) : s.environment.draws = s.draws := rfl

end Sys2Proof.Machine
end

