-- ==== Sys2Proof/Laws/Memory.lean ====
section
/-! SUPPORT. The Frame Buffer: a read after a write, what a write leaves alone, and that every memory operation keeps the canonical form. -/

namespace Sys2Proof.Machine

/-! ## One list of cells -/

@[simp] theorem Memory.find_put (a c : Nat) (v : Byte) (m : List Host.Cell) :
    Memory.find c (Memory.put a v m) = if c = a then some v else Memory.find c m := by
  induction m with
  | nil => simp [Memory.put, Memory.find]
  | cons p m ih =>
    obtain ⟨b, x⟩ := p
    by_cases h1 : a < b
    · simp [Memory.put, Memory.find, h1]
    · by_cases h2 : a = b
      · subst h2
        by_cases hc : c = a <;> simp [Memory.put, Memory.find, hc]
      · by_cases hc : c = a
        · subst hc
          simp [Memory.put, Memory.find, h1, h2, ih]
        · simp [Memory.put, Memory.find, h1, h2, hc, ih]

@[simp] theorem Memory.find_erase (a c : Nat) (m : List Host.Cell) :
    Memory.find c (Memory.erase a m) = if c = a then none else Memory.find c m := by
  induction m with
  | nil => simp [Memory.erase, Memory.find]
  | cons p m ih =>
    obtain ⟨b, x⟩ := p
    by_cases h : a = b
    · subst h
      by_cases hc : c = a
      · subst hc
        simpa [Memory.erase] using ih
      · simp [Memory.erase, Memory.find, ih, hc]
    · by_cases hc : c = a
      · subst hc
        simp [Memory.erase, Memory.find, h, ih]
      · simp [Memory.erase, Memory.find, h, hc, ih]

theorem Memory.mem_erase {a : Nat} {p : Host.Cell} {m : List Host.Cell} (h : p ∈ Memory.erase a m) : p ∈ m := by
  induction m with
  | nil => simp [Memory.erase] at h
  | cons q m ih =>
    obtain ⟨b, x⟩ := q
    by_cases hb : a = b
    · simp only [Memory.erase, hb, if_true] at h
      exact List.mem_cons_of_mem _ (ih (hb ▸ h))
    · simp only [Memory.erase, hb, if_false, List.mem_cons] at h ⊢
      exact h.imp id ih

theorem Memory.mem_put {a : Nat} {v : Byte} {p : Host.Cell} {m : List Host.Cell}
    (h : p ∈ Memory.put a v m) : p = (a, v) ∨ p ∈ m := by
  induction m with
  | nil => simpa [Memory.put] using h
  | cons q m ih =>
    obtain ⟨b, x⟩ := q
    simp only [Memory.put] at h
    split at h
    · simpa using h
    · split at h
      · rcases List.mem_cons.1 h with h | h
        · exact .inl h
        · exact .inr (List.mem_cons_of_mem _ h)
      · rcases List.mem_cons.1 h with h | h
        · exact .inr (h ▸ List.mem_cons_self)
        · exact (ih h).imp id (List.mem_cons_of_mem _)

theorem Memory.sorted_erase (a : Nat) {m : List Host.Cell} (h : m.Pairwise (fun p q => p.1 < q.1)) :
    (Memory.erase a m).Pairwise (fun p q => p.1 < q.1) := by
  induction m with
  | nil => exact h
  | cons q m ih =>
    obtain ⟨b, x⟩ := q
    rw [List.pairwise_cons] at h
    simp only [Memory.erase]
    split
    · exact ih h.2
    · exact List.pairwise_cons.2 ⟨fun p hp => h.1 p (Memory.mem_erase hp), ih h.2⟩

theorem Memory.sorted_put (a : Nat) (v : Byte) {m : List Host.Cell} (h : m.Pairwise (fun p q => p.1 < q.1)) :
    (Memory.put a v m).Pairwise (fun p q => p.1 < q.1) := by
  induction m with
  | nil => simp [Memory.put]
  | cons q m ih =>
    obtain ⟨b, x⟩ := q
    have hc := List.pairwise_cons.1 h
    simp only [Memory.put]
    split
    · rename_i hab
      refine List.pairwise_cons.2 ⟨fun p hp => ?_, h⟩
      rcases List.mem_cons.1 hp with rfl | hp
      · exact hab
      · exact Nat.lt_trans hab (hc.1 p hp)
    · split
      · rename_i hab
        exact List.pairwise_cons.2 ⟨fun p hp => hab ▸ hc.1 p hp, hc.2⟩
      · refine List.pairwise_cons.2 ⟨fun p hp => ?_, ih hc.2⟩
        rcases Memory.mem_put hp with rfl | hp
        · simp only; omega
        · exact hc.1 p hp

/-- A canonical memory lists an offset exactly where it holds another byte than an unlisted offset reads as. -/
theorem Memory.find_eq_some_iff {c : Config} {m : List Host.Cell} (h : Memory.wf c m) (a : Nat) (v : Byte) :
    Memory.find a m = some v ↔ (a, v) ∈ m := by
  obtain ⟨hs, -⟩ := h
  induction m with
  | nil => simp [Memory.find]
  | cons q m ih =>
    obtain ⟨b, x⟩ := q
    rw [List.pairwise_cons] at hs
    have ih := ih hs.2
    by_cases hab : a = b
    · subst hab
      have : (a, v) ∉ m := fun hm => absurd (hs.1 _ hm) (by simp)
      simp [Memory.find, this, eq_comm]
    · simp [Memory.find, hab, ih]

/-- Two canonical memories that list the same bytes are the same list. -/
theorem Memory.eq_of_find {c : Config} {m n : List Host.Cell} (hm : Memory.wf c m) (hn : Memory.wf c n)
    (h : ∀ a, Memory.find a m = Memory.find a n) : m = n := by
  have hmem : ∀ p, p ∈ m ↔ p ∈ n := fun ⟨a, v⟩ => by
    rw [← Memory.find_eq_some_iff hm, ← Memory.find_eq_some_iff hn, h]
  have nodup : ∀ {l : List Host.Cell}, l.Pairwise (fun p q => p.1 < q.1) → l.Nodup := fun hl =>
    hl.imp (fun hlt heq => absurd hlt (by rw [heq]; exact Nat.lt_irrefl _))
  have perm : m.Perm n := (List.perm_ext_iff_of_nodup (nodup hm.1) (nodup hn.1)).2 hmem
  refine perm.eq_of_pairwise (le := fun p q => p.1 < q.1) (fun p q _ _ h1 h2 => absurd h1 (by omega)) hm.1 hn.1

/-! ## Reads and writes of a state -/

theorem readByte_congr {s t : State} (hm : t.mem = s.mem) (hc : t.cfg = s.cfg) (a : Nat) :
    t.readByte a = s.readByte a := by simp only [State.readByte, hm, hc]

theorem readBytes_congr {s t : State} (h : ∀ a, t.readByte a = s.readByte a) (a n : Nat) :
    t.readBytes a n = s.readBytes a n := by
  induction n generalizing a with
  | zero => rfl
  | succ n ih => simp [State.readBytes, h, ih]

/-- A read after a write. -/
@[simp] theorem readByte_writeByte (s : State) (a c : Nat) (v : Byte) :
    (s.writeByte a v).readByte c = if c = a then v else s.readByte c := by
  simp only [State.readByte, State.writeByte_mem, State.writeByte_cfg]
  by_cases hv : v = initByte s.cfg a <;> by_cases hc : c = a <;> simp [hv, hc]

/-- A write changes nothing but the buffer. -/
theorem writeBytes_eq (s : State) (a : Nat) (bs : List Byte) :
    s.writeBytes a bs = { s with mem := (s.writeBytes a bs).mem } := by
  induction bs generalizing s a with
  | nil => rfl
  | cons b bs ih => rw [State.writeBytes, ih]; rfl

/-- A read after a list of writes. -/
theorem readByte_writeBytes (s : State) (a c : Nat) (bs : List Byte) :
    (s.writeBytes a bs).readByte c =
      if a ≤ c ∧ c < a + bs.length then bs.getD (c - a) 0 else s.readByte c := by
  induction bs generalizing s a with
  | nil => rw [if_neg (by simp)]; rfl
  | cons b bs ih =>
    rw [State.writeBytes, ih]
    by_cases hca : c = a
    · subst hca; simp
    · simp only [List.length_cons, readByte_writeByte, hca, if_false]
      by_cases h : a + 1 ≤ c ∧ c < a + 1 + bs.length
      · rw [if_pos h, if_pos (by omega), show c - a = (c - (a + 1)) + 1 by omega, List.getD_cons_succ]
      · rw [if_neg h, if_neg (by omega)]

@[simp] theorem readBytes_length (s : State) (a n : Nat) : (s.readBytes a n).length = n := by
  induction n generalizing a with
  | zero => rfl
  | succ n ih => simp [State.readBytes, ih]

theorem readBytes_getD (s : State) (a n i : Nat) (h : i < n) : (s.readBytes a n).getD i 0 = s.readByte (a + i) := by
  induction n generalizing a i with
  | zero => omega
  | succ n ih =>
    cases i with
    | zero => rfl
    | succ i =>
      rw [State.readBytes, List.getD_cons_succ, ih _ _ (by omega)]
      congr 1; omega

theorem readBytes_add (s : State) (a m n : Nat) : s.readBytes a (m + n) = s.readBytes a m ++ s.readBytes (a + m) n := by
  induction m generalizing a with
  | zero => simp [State.readBytes]
  | succ m ih =>
    rw [show m + 1 + n = (m + n) + 1 by omega, State.readBytes, State.readBytes, ih, List.cons_append]
    rw [show a + 1 + m = a + (m + 1) by omega]

/-- Two ranges read alike where every byte does. -/
theorem readBytes_eq {s t : State} {a n : Nat} (h : ∀ c, a ≤ c → c < a + n → t.readByte c = s.readByte c) :
    t.readBytes a n = s.readBytes a n := by
  induction n generalizing a with
  | zero => rfl
  | succ n ih =>
    rw [State.readBytes, State.readBytes, h a (Nat.le_refl _) (by omega), ih (fun c h1 h2 => h c (by omega) (by omega))]

theorem swapRange_eq (s : State) (a b n : Nat) :
    s.swapRange a b n = { s with mem := (s.swapRange a b n).mem } := by
  induction n generalizing s a b with
  | zero => rfl
  | succ n ih => rw [State.swapRange, ih]; rfl

/-- Exchanging two ranges that do not overlap. -/
theorem readByte_swapRange (s : State) (a b n c : Nat) (h : a + n ≤ b) :
    (s.swapRange a b n).readByte c =
      if a ≤ c ∧ c < a + n then s.readByte (c - a + b)
      else if b ≤ c ∧ c < b + n then s.readByte (c - b + a) else s.readByte c := by
  induction n generalizing s a b with
  | zero => rw [if_neg (by omega), if_neg (by omega)]; rfl
  | succ n ih =>
    rw [State.swapRange, ih _ _ _ (by omega)]
    simp only [State.swapByte, readByte_writeByte]
    by_cases ha : c = a
    · subst ha
      rw [if_neg (by omega), if_neg (by omega), if_neg (by omega), if_pos rfl, if_pos (by omega)]
      congr 1; omega
    · by_cases hb : c = b
      · subst hb
        rw [if_neg (by omega), if_neg (by omega), if_pos rfl, if_neg (by omega), if_pos (by omega)]
        congr 1; omega
      · by_cases h1 : a + 1 ≤ c ∧ c < a + 1 + n
        · rw [if_pos h1, if_neg (by omega), if_neg (by omega), if_pos (by omega)]
          congr 1; omega
        · rw [if_neg h1, if_neg (show ¬(a ≤ c ∧ c < a + (n + 1)) by omega)]
          by_cases h2 : b + 1 ≤ c ∧ c < b + 1 + n
          · rw [if_pos h2, if_neg (by omega), if_neg (by omega), if_pos (by omega)]
            congr 1; omega
          · rw [if_neg h2, if_neg hb, if_neg ha, if_neg (by omega)]

/-! ## The canonical form is kept -/

theorem wf_writeByte {s : State} (h : Memory.wf s.cfg s.mem) {a : Nat} (ha : a < 128) (v : Byte) :
    Memory.wf s.cfg (s.writeByte a v).mem := by
  rw [State.writeByte_mem]
  split
  · exact ⟨Memory.sorted_erase a h.1, fun p hp => h.2 p (Memory.mem_erase hp)⟩
  · rename_i hv
    refine ⟨Memory.sorted_put a v h.1, fun p hp => ?_⟩
    rcases Memory.mem_put hp with rfl | hp
    · exact ⟨ha, hv⟩
    · exact h.2 p hp

theorem wf_writeBytes {s : State} (h : Memory.wf s.cfg s.mem) (a : Nat) (bs : List Byte) (ha : a + bs.length ≤ 128) :
    Memory.wf s.cfg (s.writeBytes a bs).mem := by
  induction bs generalizing s a with
  | nil => exact h
  | cons b bs ih =>
    rw [List.length_cons] at ha
    exact ih (s := s.writeByte a b) (wf_writeByte h (by omega) b) (a + 1) (by omega)

theorem wf_swapRange {s : State} (h : Memory.wf s.cfg s.mem) (a b n : Nat) (ha : a + n ≤ 128) (hb : b + n ≤ 128) :
    Memory.wf s.cfg (s.swapRange a b n).mem := by
  induction n generalizing s a b with
  | zero => exact h
  | succ n ih =>
    have h1 : Memory.wf s.cfg (s.swapByte a b).mem :=
      wf_writeByte (s := s.writeByte a (s.readByte b)) (wf_writeByte h (by omega) _) (by omega) _
    exact ih (s := s.swapByte a b) h1 (a + 1) (b + 1) (by omega) (by omega)

/-- Two states over one configuration whose canonical buffers read alike hold the same list of cells. -/
theorem mem_eq_of_readByte {s t : State} (hc : t.cfg = s.cfg) (hs : Memory.wf s.cfg s.mem) (ht : Memory.wf t.cfg t.mem)
    (h : ∀ a, t.readByte a = s.readByte a) : t.mem = s.mem := by
  rw [hc] at ht
  refine Memory.eq_of_find ht hs (fun a => ?_)
  have hne : ∀ {m : List Host.Cell}, Memory.wf s.cfg m → ∀ {v}, Memory.find a m = some v → v ≠ initByte s.cfg a :=
    fun hm _ hv => (hm.2 _ ((Memory.find_eq_some_iff hm a _).1 hv)).2
  have ha := h a
  simp only [State.readByte, hc] at ha
  cases h1 : Memory.find a t.mem with
  | none =>
    cases h2 : Memory.find a s.mem with
    | none => rfl
    | some v => rw [h1, h2] at ha; exact absurd ha.symm (hne hs h2)
  | some u =>
    cases h2 : Memory.find a s.mem with
    | none => rw [h1, h2] at ha; exact absurd ha (hne ht h1)
    | some v => rw [h1, h2] at ha; simpa using ha

end Sys2Proof.Machine
end

