-- ==== Sys2Proof/Laws/Words.lean ====
section
/-! SUPPORT. Byte order between words and bytes, and the exactness of the length arithmetic. -/

namespace Sys2Proof.Machine

/-- Taking a word apart and putting it together again (20_memory.md R57, R58). -/
theorem wordOfBytes_wordByte (x : Word) :
    wordOfBytes (wordByte x 0) (wordByte x 1) (wordByte x 2) (wordByte x 3) = x := by
  apply BitVec.eq_of_getLsbD_eq
  intro i hi
  simp only [wordOfBytes, wordByte, BitVec.getLsbD_append, BitVec.getLsbD_extractLsb']
  repeat' split
  all_goals
    rw [decide_eq_true (by omega), Bool.true_and]
    congr 1
    omega

theorem wordByte_wordOfBytes (b0 b1 b2 b3 : Byte) : wordBytes (wordOfBytes b0 b1 b2 b3) = [b0, b1, b2, b3] := by
  have key : ∀ (j : Nat) (b : Byte), (∀ i < 8, (wordOfBytes b0 b1 b2 b3).getLsbD (8 * j + i) = b.getLsbD i) →
      wordByte (wordOfBytes b0 b1 b2 b3) j = b := fun j b h => by
    apply BitVec.eq_of_getLsbD_eq
    intro i hi
    rw [wordByte, BitVec.getLsbD_extractLsb', decide_eq_true hi, Bool.true_and, h i hi]
  have hw : ∀ i, (wordOfBytes b0 b1 b2 b3).getLsbD i =
      if i < 8 then b0.getLsbD i else if i < 16 then b1.getLsbD (i - 8)
      else if i < 24 then b2.getLsbD (i - 16) else b3.getLsbD (i - 24) := fun i => by
    simp only [wordOfBytes, BitVec.getLsbD_append]
    split
    · rfl
    · split
      · rw [if_pos (by omega)]
      · split
        · rw [if_neg (by omega), if_pos (by omega)]; congr 1
        · rw [if_neg (by omega), if_neg (by omega)]; congr 1
  rw [wordBytes, key 0 b0, key 1 b1, key 2 b2, key 3 b3]
  all_goals
    intro i hi
    rw [hw]
  · rw [if_neg (by omega), if_neg (by omega), if_neg (by omega)]; congr 1; omega
  · rw [if_neg (by omega), if_neg (by omega), if_pos (by omega)]; congr 1; omega
  · rw [if_neg (by omega), if_pos (by omega)]; congr 1; omega
  · rw [if_pos (by omega)]; congr 1; omega

@[simp] theorem wordBytes_length (x : Word) : (wordBytes x).length = 4 := rfl

/-- A 16-bit value is the big-endian value of its two bytes (40_checksum.md R104). -/
theorem be16_halfBytes (c : Half) : be16 (c.extractLsb' 8 8) (c.extractLsb' 0 8) = c := by
  apply BitVec.eq_of_getLsbD_eq
  intro i hi
  simp only [be16, BitVec.getLsbD_append, BitVec.getLsbD_extractLsb']
  split
  · rw [decide_eq_true (by omega), Bool.true_and]; congr 1; omega
  · rw [decide_eq_true (by omega), Bool.true_and]; congr 1; omega

@[simp] theorem halfBytes_length (c : Half) : (halfBytes c).length = 2 := rfl

theorem be16_toNat (hi lo : Byte) : (be16 hi lo).toNat = hi.toNat * 256 + lo.toNat := by
  simp only [be16, BitVec.toNat_append, Nat.shiftLeft_eq]
  have := lo.isLt
  rw [show (2:Nat)^8 = 256 from rfl, Nat.mul_comm, ← Nat.two_pow_add_eq_or_of_lt (i := 8) (by omega)]

/-- `byteCount` is exact in its 30 bits (41_receiver.md R112). -/
theorem byteCountOf_toNat (len : Word) : (byteCountOf len).toNat = (len.toNat + 7) / 8 := by
  have := len.isLt
  simp only [byteCountOf, ceilDiv, BitVec.toNat_ofNat]
  omega

/-- `wordCount` is exact in its 28 bits (41_receiver.md R112). -/
theorem payloadWords_toNat (len : Word) : (payloadWords len).toNat = ((len.toNat + 7) / 8 + 3) / 4 := by
  have := len.isLt
  simp only [payloadWords, wordCountOf, ceilDiv, BitVec.toNat_ofNat, byteCountOf_toNat]
  omega

/-- `byteCount` in terms of the length word. -/
theorem byteCountOf_eq (n : Word) : byteCountOf n = BitVec.ofNat 30 ((n.toNat + 7) / 8) :=
  BitVec.eq_of_toNat_eq (by have := n.isLt; rw [byteCountOf_toNat, BitVec.toNat_ofNat]; omega)

/-- `wordCount` in terms of the length word. -/
theorem payloadWords_eq (n : Word) : payloadWords n = BitVec.ofNat 28 (((n.toNat + 7) / 8 + 3) / 4) :=
  BitVec.eq_of_toNat_eq (by have := n.isLt; rw [payloadWords_toNat, BitVec.toNat_ofNat]; omega)

/-- The EtherType comparison, byte by byte (20_memory.md R56). -/
theorem be16_eq_0800 (hi lo : Byte) : be16 hi lo = 0x0800 ↔ hi = 0x08 ∧ lo = 0x00 := by
  rw [← BitVec.toNat_inj, be16_toNat, ← BitVec.toNat_inj, ← BitVec.toNat_inj]
  have := lo.isLt; have := hi.isLt
  simp; omega

end Sys2Proof.Machine
end

