-- ==== Sys2Proof/Laws/Checksum.lean ====
section
/-! SUPPORT. The Internet checksum: folding has a closed form, and the sum of a range is the sum of its even-length parts. -/

namespace Sys2Proof.Machine

theorem foldOnce_eq (n : Nat) : foldOnce n = n % 65536 + n / 65536 := by
  rw [foldOnce, show (0xFFFF : Nat) = 2 ^ 16 - 1 from rfl, Nat.and_two_pow_sub_one_eq_mod, Nat.shiftRight_eq_div_pow]

/-- What folding leaves: the residue modulo 0xFFFF, with 0xFFFF and not 0 for a sum that is not zero (40_checksum.md R102). -/
theorem foldFuel_eq (fuel n : Nat) (h : n ≤ fuel + 65535) :
    foldFuel fuel n = if n = 0 then 0 else (n - 1) % 65535 + 1 := by
  induction fuel generalizing n with
  | zero => rw [foldFuel]; split <;> omega
  | succ fuel ih =>
    rw [foldFuel]
    split
    · rw [ih _ (by rw [foldOnce_eq]; omega), foldOnce_eq]
      rw [if_neg (by omega), if_neg (by omega)]
      omega
    · split <;> omega

theorem foldSum_eq (n : Nat) : foldSum n = if n = 0 then 0 else (n - 1) % 65535 + 1 := foldFuel_eq n n (by omega)

theorem foldSum_le (n : Nat) : foldSum n ≤ 65535 := by rw [foldSum_eq]; split <;> omega

theorem foldSum_mod (n : Nat) : foldSum n % 65535 = n % 65535 := by rw [foldSum_eq]; split <;> omega

theorem foldSum_eq_zero (n : Nat) : foldSum n = 0 ↔ n = 0 := by rw [foldSum_eq]; split <;> omega

theorem checksum_toNat (d : List Byte) : (checksum d).toNat = 65535 - foldSum (wordSum d) := by
  have := foldSum_le (wordSum d)
  rw [checksum, BitVec.toNat_not, BitVec.toNat_ofNat, Nat.mod_eq_of_lt (by omega)]

/-- The sum of a list whose first part has an even length. -/
theorem wordSum_append (d e : List Byte) (h : d.length % 2 = 0) : wordSum (d ++ e) = wordSum d + wordSum e := by
  match d, h with
  | [], _ => simp [wordSum]
  | [_], h => simp at h
  | hi :: lo :: d, h =>
    have := wordSum_append d e (by rw [List.length_cons, List.length_cons] at h; omega)
    simp only [List.cons_append, wordSum, this]
    omega

theorem wordSum_halfBytes (c : Half) : wordSum (halfBytes c) = c.toNat := by
  simp [halfBytes, wordSum, be16_halfBytes]

theorem wordSum_zero_field : wordSum [0x00, 0x00] = 0 := rfl

theorem byte_eq_zero (b : Byte) : b = 0 ↔ b.toNat = 0 := ⟨fun h => h ▸ rfl, fun h => BitVec.eq_of_toNat_eq h⟩

theorem wordSum_eq_zero (d : List Byte) : wordSum d = 0 ↔ ∀ b ∈ d, b = 0 := by
  match d with
  | [] => simp [wordSum]
  | [b] =>
    rw [wordSum, Nat.shiftLeft_eq, List.forall_mem_singleton, byte_eq_zero]
    omega
  | hi :: lo :: d =>
    rw [wordSum, be16_toNat, List.forall_mem_cons, List.forall_mem_cons, ← wordSum_eq_zero d, byte_eq_zero, byte_eq_zero]
    omega

/-- The sum as one sum over the bytes: those at even places weigh 256. -/
theorem wordSum_eq_weighted (d : List Byte) : wordSum d =
    ((List.range d.length).map (fun k => (d.getD k 0).toNat * (if k % 2 = 0 then 256 else 1))).sum := by
  match d with
  | [] => rfl
  | [b] => simp [wordSum, Nat.shiftLeft_eq]
  | hi :: lo :: d =>
    have ih := wordSum_eq_weighted d
    rw [wordSum, be16_toNat, ih]
    simp only [List.length_cons, List.range_succ_eq_map, List.map_cons, List.sum_cons, List.map_map]
    simp [Function.comp_def, Nat.add_assoc]

theorem checksum_eq_zero {d : List Byte} (h0 : wordSum d ≠ 0) (h : wordSum d % 65535 = 0) : checksum d = 0 := by
  apply BitVec.eq_of_toNat_eq
  rw [checksum_toNat, foldSum_eq, if_neg h0]
  simp; omega

theorem checksum_congr {d e : List Byte} (h : wordSum d = wordSum e) : checksum d = checksum e := by rw [checksum, h, ← checksum]

/-- A mapped range cut around two neighbouring places. -/
theorem map_range_split {α : Type} (f : Nat → α) (p n : Nat) (h : p + 2 ≤ n) :
    (List.range n).map f = (List.range p).map f ++ [f p, f (p + 1)] ++ (List.range (n - p - 2)).map (fun k => f (p + 2 + k)) := by
  obtain ⟨q, rfl⟩ : ∃ q, n = p + 2 + q := ⟨n - p - 2, by omega⟩
  rw [show p + 2 + q - p - 2 = q by omega, List.range_add, List.map_append, List.range_add, List.map_append]
  simp [List.map_map, Function.comp_def, List.range_succ]

end Sys2Proof.Machine
end

