-- ==== Sys2Proof/Laws/Receive.lean ====
section
/-! SUPPORT. What the drain of RECV does, where the queue holds the words it pops and where it does not, and what RECV comes to. -/

namespace Sys2Proof.Machine

theorem streamByte_cons (x : Word) (ws : List Word) (i : Nat) :
    streamByte (x :: ws) (i + 4) = streamByte ws i := by
  rw [streamByte, streamByte, show (i + 4) / 4 = i / 4 + 1 by omega, List.getD_cons_succ, show (i + 4) % 4 = i % 4 by omega]

theorem wordBytes_getD (x : Word) (ws : List Word) (i : Nat) (h : i < 4) :
    (wordBytes x).getD i 0 = streamByte (x :: ws) i := by
  rw [streamByte, show i / 4 = 0 by omega, show i % 4 = i by omega, List.getD_cons_zero]
  match i, h with
  | 0, _ | 1, _ | 2, _ | 3, _ => rfl

/-- A pop of a queue that is not empty. -/
theorem popWord_cons {s : State} {x : Word} {q : List Word} (h : s.rxq = x :: q) :
    s.popWord = .done x { s with w := x, rxq := q, trace := s.trace ++ [.rxPop x] } := by
  rw [State.popWord, h]; rfl

/-- A pop of the empty queue. -/
theorem popWord_nil {s : State} (h : s.rxq = []) : s.popWord = .raised (s.raise .rxUnderflow) := by
  rw [State.popWord, h]

/-- One payload word copied at fill position `n`. -/
theorem readByte_copy (s : State) (x : Word) (ws : List Word) (n a : Nat) (hn : n ≤ 128) :
    (s.writeBytes n ((wordBytes x).take (copyLen n))).readByte a =
      if n ≤ a ∧ a < min (n + 4) 128 then streamByte (x :: ws) (a - n) else s.readByte a := by
  rw [readByte_writeBytes, List.length_take, wordBytes_length, copyLen, Config.cap]
  by_cases h : n ≤ a ∧ a < min (n + 4) 128
  · rw [if_pos h, if_pos (by omega), ← wordBytes_getD x ws (a - n) (by omega)]
    simp only [List.getD_eq_getElem?_getD, List.getElem?_take]
    rw [if_pos (by omega)]
  · rw [if_neg h, if_neg (by omega)]

/-- The drain of a frame whose words are all queued (41_receiver.md R113, R116). -/
theorem drain_done (ws rest : List Word) (n : Nat) (s : State) (hq : s.rxq = ws ++ rest) (hn : n ≤ 128) :
    ∃ m, drain ws.length n s = .done (min (n + 4 * ws.length) 128)
        { s with w := ws.getLastD s.w, rxq := rest, mem := m, trace := s.trace ++ ws.map .rxPop } ∧
      (Memory.wf s.cfg s.mem → Memory.wf s.cfg m) ∧
      ∀ a, ({ s with mem := m } : State).readByte a =
        if n ≤ a ∧ a < min (n + 4 * ws.length) 128 then streamByte ws (a - n) else s.readByte a := by
  induction ws generalizing s n with
  | nil =>
    refine ⟨s.mem, ?_, id, fun a => ?_⟩
    · simp only [drain, List.length_nil, List.getLastD_nil, List.map_nil, List.append_nil, Nat.mul_zero, Nat.add_zero]
      rw [Nat.min_eq_left hn, ← show s.rxq = rest from hq]
    · rw [if_neg (by simp only [List.length_nil]; omega)]
  | cons x ws ih =>
    have hp := popWord_cons (s := s) (x := x) (q := ws ++ rest) hq
    generalize hu : ({ s with w := x, rxq := ws ++ rest, trace := s.trace ++ [.rxPop x] } : State) = u at hp
    have hv := writeBytes_eq u n ((wordBytes x).take (copyLen n))
    generalize hvv : u.writeBytes n ((wordBytes x).take (copyLen n)) = v at hv
    have hcl : n + copyLen n = min (n + 4) 128 := by rw [copyLen, Config.cap]; omega
    obtain ⟨m, h1, h2, h3⟩ := ih (n := n + copyLen n) (s := v) (by rw [hv, ← hu]) (by omega)
    have hvc : v.cfg = s.cfg := by rw [hv, ← hu]
    refine ⟨m, ?_, fun hw => ?_, fun a => ?_⟩
    · rw [List.length_cons, drain, hp]
      simp only [hvv]
      rw [h1, show min (n + copyLen n + 4 * ws.length) 128 = min (n + 4 * (ws.length + 1)) 128 by omega, hv, ← hu]
      simp only [List.getLastD_cons, List.map_cons, List.append_assoc, List.singleton_append]
    · rw [hvc] at h2
      refine h2 ?_
      rw [← hvv]
      have := wf_writeBytes (s := u) (by rw [← hu]; exact hw) n ((wordBytes x).take (copyLen n))
        (by rw [List.length_take, wordBytes_length]; omega)
      rwa [show u.cfg = s.cfg by rw [← hu]] at this
    · have hr := h3 a
      rw [readByte_congr (s := { s with mem := m }) (t := { v with mem := m }) rfl hvc] at hr
      rw [hr, ← hvv, readByte_copy u x ws n a hn, readByte_congr (s := s) (t := u) (by rw [← hu]) (by rw [← hu]),
        List.length_cons]
      by_cases hA : n + copyLen n ≤ a ∧ a < min (n + copyLen n + 4 * ws.length) 128
      · rw [if_pos hA, if_pos (by omega)]
        rw [show a - n = (a - (n + copyLen n)) + 4 by omega, streamByte_cons]
      · rw [if_neg hA]
        by_cases hB : n ≤ a ∧ a < min (n + 4) 128
        · rw [if_pos hB, if_pos (by omega)]
        · rw [if_neg hB, if_neg (by omega)]

/-- The drain of a frame whose words are not all queued: every queued word is popped and the next pop raises (45_interface.md R172). -/
theorem drain_raised (ws : List Word) (count n : Nat) (s : State) (hq : s.rxq = ws) (hc : ws.length < count) (hn : n ≤ 128) :
    ∃ m, drain count n s = .raised
        { s with w := ws.getLastD s.w, rxq := [], mem := m, trace := s.trace ++ ws.map .rxPop
                 fault := s.fault.add .rxUnderflow } ∧
      (Memory.wf s.cfg s.mem → Memory.wf s.cfg m) ∧
      ∀ a, ({ s with mem := m } : State).readByte a =
        if n ≤ a ∧ a < min (n + 4 * ws.length) 128 then streamByte ws (a - n) else s.readByte a := by
  induction ws generalizing s n count with
  | nil =>
    obtain ⟨c, rfl⟩ : ∃ c, count = c + 1 := ⟨count - 1, by simp at hc; omega⟩
    refine ⟨s.mem, ?_, id, fun a => ?_⟩
    · rw [drain, popWord_nil hq]
      simp only [State.raise, List.getLastD_nil, List.map_nil, List.append_nil, hq]
    · rw [if_neg (by simp only [List.length_nil]; omega)]
  | cons x ws ih =>
    obtain ⟨c, rfl⟩ : ∃ c, count = c + 1 := ⟨count - 1, by simp at hc; omega⟩
    have hp := popWord_cons (s := s) (x := x) (q := ws) hq
    generalize hu : ({ s with w := x, rxq := ws, trace := s.trace ++ [.rxPop x] } : State) = u at hp
    have hv := writeBytes_eq u n ((wordBytes x).take (copyLen n))
    generalize hvv : u.writeBytes n ((wordBytes x).take (copyLen n)) = v at hv
    have hcl : n + copyLen n = min (n + 4) 128 := by rw [copyLen, Config.cap]; omega
    obtain ⟨m, h1, h2, h3⟩ := ih (n := n + copyLen n) (s := v) (count := c) (by rw [hv, ← hu])
      (by rw [List.length_cons] at hc; omega) (by omega)
    have hvc : v.cfg = s.cfg := by rw [hv, ← hu]
    refine ⟨m, ?_, fun hw => ?_, fun a => ?_⟩
    · rw [drain, hp]
      simp only [hvv]
      rw [h1, hv, ← hu]
      simp only [List.getLastD_cons, List.map_cons, List.append_assoc, List.singleton_append]
    · rw [hvc] at h2
      refine h2 ?_
      rw [← hvv]
      have := wf_writeBytes (s := u) (by rw [← hu]; exact hw) n ((wordBytes x).take (copyLen n))
        (by rw [List.length_take, wordBytes_length]; omega)
      rwa [show u.cfg = s.cfg by rw [← hu]] at this
    · have hr := h3 a
      rw [readByte_congr (s := { s with mem := m }) (t := { v with mem := m }) rfl hvc] at hr
      rw [hr, ← hvv, readByte_copy u x ws n a hn, readByte_congr (s := s) (t := u) (by rw [← hu]) (by rw [← hu]),
        List.length_cons]
      by_cases hA : n + copyLen n ≤ a ∧ a < min (n + copyLen n + 4 * ws.length) 128
      · rw [if_pos hA, if_pos (by omega)]
        rw [show a - n = (a - (n + copyLen n)) + 4 by omega, streamByte_cons]
      · rw [if_neg hA]
        by_cases hB : n ≤ a ∧ a < min (n + 4) 128
        · rw [if_pos hB, if_pos (by omega)]
        · rw [if_neg hB, if_neg (by omega)]

/-- RECV with nothing presented (41_receiver.md R111). -/
theorem receive_none {s : State} (h : s.rxReady = false) :
    receive s = { s with ready := false, rxOut := .noFrame, trace := s.trace ++ [.rxReady false] } := by
  rw [receive, if_neg (by rw [State.pollReady_ready, h]; simp), State.pollReady, h]; rfl

/-- RECV with something presented. -/
theorem receive_some {s : State} (h : s.rxReady = true) :
    receive s = receiveFrame { s with ready := true, trace := s.trace ++ [.rxReady true] } := by
  rw [receive, if_pos (by rw [State.pollReady_ready, h]), State.pollReady, h]; rfl

/-- RECV of a frame whose words are all queued (41_receiver.md R112 to R117). -/
theorem receive_frame {s : State} (len : Word) (ws rest : List Word) (h : s.rxReady = true)
    (hq : s.rxq = len :: (ws ++ rest)) (hl : ws.length = (payloadWords len).toNat) :
    ∃ m, receive s =
        { s with
          ready := true, w := ws.getLastD len, bitLen := len, byteCount := byteCountOf len, wordCount := payloadWords len
          rxLen := BitVec.ofNat 8 (min (4 * ws.length) 128), rxOut := frameOutcome s.cfg (byteCountOf len)
          rxq := rest, mem := m, trace := s.trace ++ .rxReady true :: .rxPop len :: ws.map .rxPop } ∧
      (Memory.wf s.cfg s.mem → Memory.wf s.cfg m) ∧
      ∀ a, ({ s with mem := m } : State).readByte a =
        if a < min (4 * ws.length) 128 then streamByte ws a else s.readByte a := by
  rw [receive_some h, receiveFrame, popWord_cons (x := len) (q := ws ++ rest) (by exact hq)]
  simp only
  generalize hu : State.setLength { s with ready := true, w := len, rxq := ws ++ rest, trace := s.trace ++ [.rxReady true] ++ [.rxPop len] } len = u
  obtain ⟨m, h1, h2, h3⟩ := drain_done ws rest 0 u (by rw [← hu]; rfl) (by omega)
  have huc : u.cfg = s.cfg := by rw [← hu]; rfl
  have hum : u.mem = s.mem := by rw [← hu]; rfl
  refine ⟨m, ?_, ?_, fun a => ?_⟩
  · rw [← hl, h1, ← hu]
    simp [State.closeFrame, State.setLength]
  · rw [huc, hum] at h2; exact h2
  · have hr := h3 a
    rw [readByte_congr (s := { s with mem := m }) (t := { u with mem := m }) rfl huc, readByte_congr hum huc] at hr
    simpa using hr

/-- RECV where the queue holds no length word. -/
theorem receive_empty {s : State} (h : s.rxReady = true) (hq : s.rxq = []) :
    receive s = { s with ready := true, fault := s.fault.add .rxUnderflow, trace := s.trace ++ [.rxReady true] } := by
  rw [receive_some h, receiveFrame, popWord_nil (by exact hq)]; rfl

/-- RECV where the length word claims more words than are queued (60_exceptions.md R212, R213): the counts and the bytes of the queued words are written, `rxLen` and `rxOut` are not. -/
theorem receive_short {s : State} (len : Word) (ws : List Word) (h : s.rxReady = true)
    (hq : s.rxq = len :: ws) (hl : ws.length < (payloadWords len).toNat) :
    ∃ m, receive s =
        { s with
          ready := true, w := ws.getLastD len, bitLen := len, byteCount := byteCountOf len, wordCount := payloadWords len
          fault := s.fault.add .rxUnderflow
          rxq := [], mem := m, trace := s.trace ++ .rxReady true :: .rxPop len :: ws.map .rxPop } ∧
      (Memory.wf s.cfg s.mem → Memory.wf s.cfg m) ∧
      ∀ a, ({ s with mem := m } : State).readByte a =
        if a < min (4 * ws.length) 128 then streamByte ws a else s.readByte a := by
  rw [receive_some h, receiveFrame, popWord_cons (x := len) (q := ws) (by exact hq)]
  simp only
  generalize hu : State.setLength { s with ready := true, w := len, rxq := ws, trace := s.trace ++ [.rxReady true] ++ [.rxPop len] } len = u
  obtain ⟨m, h1, h2, h3⟩ := drain_raised ws _ 0 u (by rw [← hu]; rfl) hl (by omega)
  have huc : u.cfg = s.cfg := by rw [← hu]; rfl
  have hum : u.mem = s.mem := by rw [← hu]; rfl
  refine ⟨m, ?_, ?_, fun a => ?_⟩
  · rw [h1, ← hu]
    simp [State.setLength]
  · rw [huc, hum] at h2; exact h2
  · have hr := h3 a
    rw [readByte_congr (s := { s with mem := m }) (t := { u with mem := m }) rfl huc, readByte_congr hum huc] at hr
    simpa using hr

end Sys2Proof.Machine
end

