-- ==== Sys2Proof/Laws/Transmit.lean ====
section
/-! SUPPORT. What the pushes of XMIT do, and what XMIT comes to. -/

namespace Sys2Proof.Machine

theorem txSentNext_of_ne {s : State} (h : s.txSent ≠ BitVec.allOnes 28) : s.txSentNext = s.txSent + 1 := if_neg h

theorem drawsNext_of_ne {s : State} (h : s.txSent ≠ BitVec.allOnes 28) : s.drawsNext = s.draws := if_neg h

/-- A push of a given word, counted within 28 bits (45_interface.md R174). -/
theorem pushWord_eq {s : State} (x : Word) (h : s.txSent ≠ BitVec.allOnes 28) :
    ({ s with w := x } : State).pushWord =
      { s with w := x, txSent := s.txSent + 1, txq := s.txq ++ [x], trace := s.trace ++ [.txPush x] } := by
  rw [State.pushWord, txSentNext_of_ne (s := { s with w := x }) h, drawsNext_of_ne (s := { s with w := x }) h]; rfl

theorem frameWord_congr {s t : State} (hm : t.mem = s.mem) (hc : t.cfg = s.cfg) (hl : t.rxLen = s.rxLen) (k : Nat) :
    t.frameWord k = s.frameWord k := by
  simp only [State.frameWord, State.frameByte, readByte_congr hm hc, hl]

/-- The pushes of XMIT (44_transmitter.md R160), where the count stays within 28 bits. -/
theorem pushFrame_eq (count k : Nat) (s : State) (h : s.txSent.toNat + count < 2 ^ 28) :
    pushFrame count k s =
      { s with
        w := ((List.range' k count).map s.frameWord).getLastD s.w
        txSent := BitVec.ofNat 28 (s.txSent.toNat + count)
        txq := s.txq ++ (List.range' k count).map s.frameWord
        trace := s.trace ++ (List.range' k count).map (fun j => .txPush (s.frameWord j)) } := by
  induction count generalizing k s with
  | zero => simp [pushFrame]
  | succ count ih =>
    have hne : s.txSent ≠ BitVec.allOnes 28 := fun he => by
      rw [he, BitVec.toNat_allOnes] at h; omega
    have hsucc : (s.txSent + 1).toNat = s.txSent.toNat + 1 := by
      rw [BitVec.toNat_add]; simp; omega
    rw [pushFrame, pushWord_eq _ hne, ih _ _ (by simp only [hsucc]; omega)]
    have hf : ∀ j, ({ s with w := s.frameWord k, txSent := s.txSent + 1, txq := s.txq ++ [s.frameWord k]
                             trace := s.trace ++ [.txPush (s.frameWord k)] } : State).frameWord j = s.frameWord j :=
      fun j => frameWord_congr rfl rfl rfl j
    simp only [hf, hsucc, List.range'_succ, List.map_cons, List.getLastD_cons, List.append_assoc, List.singleton_append,
      show s.txSent.toNat + 1 + count = s.txSent.toNat + (count + 1) by omega,
      show State.frameWord { s with w := s.frameWord k, txSent := s.txSent + 1, txq := s.txq ++ [s.frameWord k]
                                    trace := s.trace ++ .txPush (s.frameWord k) :: [] } = s.frameWord from funext hf]

/-- XMIT before its check: the announcement and all the words (44_transmitter.md R161 to R163). -/
theorem transmit_eq (s : State) :
    transmit s = State.checkSent
      { s with
        w := ((List.range' 0 (ceilDiv s.rxLen.toNat 4)).map s.frameWord).getLastD s.w
        txExpect := payloadWords s.bitLen
        txSent := BitVec.ofNat 28 (ceilDiv s.rxLen.toNat 4)
        txq := s.txq ++ s.bitLen :: (List.range' 0 (ceilDiv s.rxLen.toNat 4)).map s.frameWord
        trace := s.trace ++ .txAnnounce s.bitLen ::
          (List.range' 0 (ceilDiv s.rxLen.toNat 4)).map (fun j => .txPush (s.frameWord j)) } := by
  have hlt := s.rxLen.isLt
  have hf : s.announce.frameWord = s.frameWord := funext (fun j => frameWord_congr rfl rfl rfl j)
  rw [transmit, pushFrame_eq _ _ _ (by simp only [State.announce_txSent, ceilDiv]; simp; omega)]
  simp only [hf]
  simp only [State.announce, State.emit, Nat.zero_add, List.append_assoc, List.singleton_append,
    show (0 : BitVec 28).toNat = 0 from rfl]

theorem checkSent_of_eq {s : State} (h : s.txSent = s.txExpect) : s.checkSent = s := if_pos h

theorem checkSent_of_ne {s : State} (h : s.txSent ≠ s.txExpect) : s.checkSent = s.raise (.txMismatch s.txExpect s.txSent) :=
  if_neg h

/-- The check writes nothing but the fault flags. -/
theorem checkSent_fields (s : State) : s.checkSent = { s with fault := s.checkSent.fault } := by
  by_cases h : s.txSent = s.txExpect
  · rw [checkSent_of_eq h]
  · rw [checkSent_of_ne h]; rfl

/-- What XMIT may write, by name. -/
theorem transmit_fields (s : State) :
    transmit s =
      { s with
        w := (transmit s).w, txExpect := (transmit s).txExpect, txSent := (transmit s).txSent
        fault := (transmit s).fault, txq := (transmit s).txq, trace := (transmit s).trace } := by
  rw [transmit_eq, checkSent_fields]

end Sys2Proof.Machine
end

