-- ==== Sys2Proof/Laws/Exec.lean ====
section
/-! SUPPORT. What each operation comes to, as one equation or one case analysis, and what every operation keeps. -/

namespace Sys2Proof.Machine

theorem countDown_eq (n : Nat) : countDown n = 0 := by
  induction n with
  | zero => rfl
  | succ n ih => exact ih

theorem execHold_eq (s : State) :
    execHold s = .next { s with settleLeft := 0, trace := s.trace ++ [.hold s.cfg.settleDelay] } := by
  rw [execHold, countDown_eq]; rfl

/-! ## The checksum fields -/

/-- Refreshing a checksum field changes only the buffer and `csum`. -/
theorem refreshChecksum_eq (s : State) (f off len : Nat) :
    s.refreshChecksum f off len =
      { s with mem := (s.refreshChecksum f off len).mem
               csum := checksum ((s.writeBytes f [0x00, 0x00]).readBytes off len) } := by
  have hz := writeBytes_eq s f [0x00, 0x00]
  have hw : ∀ M C, ({ s.writeBytes f [0x00, 0x00] with mem := M, csum := C } : State) = { s with mem := M, csum := C } :=
    fun M C => by rw [hz]
  rw [← hw]
  exact writeBytes_eq _ _ _

/-- The buffer after a checksum field is refreshed: the sum in the field, high byte first. -/
theorem readByte_refreshChecksum (s : State) (f off len a : Nat) :
    (s.refreshChecksum f off len).readByte a =
      if a = f then (s.refreshChecksum f off len).csum.extractLsb' 8 8
      else if a = f + 1 then (s.refreshChecksum f off len).csum.extractLsb' 0 8 else s.readByte a := by
  have hc : (s.refreshChecksum f off len).csum = checksum ((s.writeBytes f [0x00, 0x00]).readBytes off len) := by
    rw [refreshChecksum_eq]
  rw [hc]
  simp only [State.refreshChecksum, State.storeHalf, readByte_writeBytes, halfBytes_length, State.sumRange_csum]
  rw [readByte_congr (s := s.writeBytes f [0x00, 0x00]) (t := (s.writeBytes f [0x00, 0x00]).sumRange off len) rfl rfl,
    readByte_writeBytes]
  have hl : [(0x00 : Byte), 0x00].length = 2 := rfl
  rw [hl]
  by_cases h1 : a = f
  · subst h1; simp [halfBytes]
  · by_cases h2 : a = f + 1
    · subst h2; simp [halfBytes]
    · have h3 : ¬ (f ≤ a ∧ a < f + 2) := by omega
      simp only [h1, h2, h3, if_false]

theorem wf_refreshChecksum {s : State} (h : Memory.wf s.cfg s.mem) (f off len : Nat) (hf : f + 2 ≤ 128) :
    Memory.wf s.cfg (s.refreshChecksum f off len).mem := by
  have h1 := wf_writeBytes h f [0x00, 0x00] hf
  have hcfg : (s.writeBytes f [0x00, 0x00]).cfg = s.cfg := by rw [writeBytes_eq]
  have h2 := wf_writeBytes (s := (s.writeBytes f [0x00, 0x00]).sumRange off len)
    (by rw [State.sumRange_cfg, State.sumRange_mem, hcfg]; exact h1) f
    (halfBytes ((s.writeBytes f [0x00, 0x00]).sumRange off len).csum) hf
  rw [State.sumRange_cfg, hcfg] at h2
  exact h2

/-! ## Every operation -/

/-- What every operation keeps, and the two things it may only add to. -/
structure Kept (s t : State) : Prop where
  cfg      : t.cfg = s.cfg
  state    : t.state = s.state
  pending  : t.pending = s.pending
  rxReady  : t.rxReady = s.rxReady
  arrivals : t.arrivals = s.arrivals
  popped   : ∃ k, t.rxq = s.rxq.drop k
  traced   : ∃ es, t.trace = s.trace ++ es ∧ t.txq = s.txq ++ es.flatMap Event.sent
  sticky   : (s.fault.rxUnderflow = true → t.fault.rxUnderflow = true) ∧
    (s.fault.icmpShort.isSome = true → t.fault.icmpShort.isSome = true) ∧
    (s.fault.txMismatch.isSome = true → t.fault.txMismatch.isSome = true)

theorem Kept.refl (s : State) : Kept s s :=
  ⟨rfl, rfl, rfl, rfl, rfl, ⟨0, rfl⟩, ⟨[], by simp, by simp⟩, id, id, id⟩

theorem any_add (f : FaultFlags) (e : EngineFault) : (f.add e).any = true := by
  cases e <;> simp [FaultFlags.add, FaultFlags.any]

theorem flatMap_sent_rxPop (ws : List Word) : (ws.map Event.rxPop).flatMap Event.sent = [] := by
  induction ws with
  | nil => rfl
  | cons x ws ih => simp [Event.sent]

theorem flatMap_sent_txPush (f : Nat → Word) (ks : List Nat) :
    (ks.map (fun j => Event.txPush (f j))).flatMap Event.sent = ks.map f := by
  induction ks with
  | nil => rfl
  | cons k ks ih => simpa [Event.sent] using ih

/-- The four ways RECV goes: nothing presented, no length word, too few words, a whole frame. -/
theorem receive_cases (s : State) :
    s.rxReady = false ∨ (s.rxReady = true ∧ s.rxq = []) ∨
    (∃ len ws, s.rxReady = true ∧ s.rxq = len :: ws ∧ ws.length < (payloadWords len).toNat) ∨
    (∃ len ws rest, s.rxReady = true ∧ s.rxq = len :: (ws ++ rest) ∧ ws.length = (payloadWords len).toNat) := by
  cases hr : s.rxReady with
  | false => exact .inl rfl
  | true =>
    cases hq : s.rxq with
    | nil => exact .inr (.inl ⟨rfl, rfl⟩)
    | cons len ws =>
      by_cases h : ws.length < (payloadWords len).toNat
      · exact .inr (.inr (.inl ⟨len, ws, rfl, rfl, h⟩))
      · refine .inr (.inr (.inr ⟨len, ws.take (payloadWords len).toNat, ws.drop (payloadWords len).toNat, rfl, ?_, ?_⟩))
        · rw [List.take_append_drop]
        · rw [List.length_take]; omega

theorem receive_kept (s : State) : Kept s (receive s) := by
  rcases receive_cases s with h | ⟨h, hq⟩ | ⟨len, ws, h, hq, hl⟩ | ⟨len, ws, rest, h, hq, hl⟩
  · rw [receive_none h]
    exact ⟨rfl, rfl, rfl, rfl, rfl, ⟨0, rfl⟩, ⟨_, rfl, by simp [Event.sent]⟩, id, id, id⟩
  · rw [receive_empty h hq]
    exact ⟨rfl, rfl, rfl, rfl, rfl, ⟨0, rfl⟩, ⟨_, rfl, by simp [Event.sent]⟩, fun _ => rfl, id, id⟩
  · obtain ⟨m, hm, -, -⟩ := receive_short len ws h hq hl
    rw [hm]
    refine ⟨rfl, rfl, rfl, rfl, rfl, ⟨s.rxq.length, by simp⟩, ⟨_, rfl, ?_⟩, fun _ => rfl, id, id⟩
    simp [Event.sent, flatMap_sent_rxPop]
  · obtain ⟨m, hm, -, -⟩ := receive_frame len ws rest h hq hl
    rw [hm]
    refine ⟨rfl, rfl, rfl, rfl, rfl, ⟨1 + ws.length, ?_⟩, ⟨_, rfl, ?_⟩, id, id, id⟩
    · simp [hq, Nat.add_comm 1]
    · simp [Event.sent, flatMap_sent_rxPop]

theorem transmit_kept (s : State) : Kept s (transmit s) := by
  have key : ∀ u : State, Kept s u → Kept s u.checkSent := fun u hu => by
    by_cases h : u.txSent = u.txExpect
    · rwa [checkSent_of_eq h]
    · rw [checkSent_of_ne h]
      exact ⟨hu.cfg, hu.state, hu.pending, hu.rxReady, hu.arrivals, hu.popped, hu.traced,
        hu.sticky.1, hu.sticky.2.1, fun _ => rfl⟩
  rw [transmit_eq]
  refine key _ ⟨rfl, rfl, rfl, rfl, rfl, ⟨0, rfl⟩, ⟨_, rfl, ?_⟩, id, id, id⟩
  rw [List.flatMap_cons, flatMap_sent_txPush]; rfl

/-- Every operation that answers a next state keeps the configuration, the Control Loop's state and what it has to issue, and what the environment owns; it only takes words from the head of the receive queue, appends to the trace and the transmit queue alike, and clears no fault flag. -/
theorem exec_kept {i : Instr} {s t : State} (h : exec i s = .next t) : Kept s t := by
  have inj : ∀ {u v : State}, (Host.Outcome.next u : Host.Outcome State Fault Refusal) = .next v → u = v :=
    fun he => by injection he
  cases i with
  | rxrdy => cases inj h; exact ⟨rfl, rfl, rfl, rfl, rfl, ⟨0, rfl⟩, ⟨_, rfl, by simp [Event.sent]⟩, id, id, id⟩
  | rxpop =>
    cases inj h
    cases hq : s.rxq with
    | nil =>
      rw [popWord_nil hq]
      exact ⟨rfl, rfl, rfl, rfl, rfl, ⟨0, rfl⟩, ⟨[], by simp [Attempt.final], by simp [Attempt.final]⟩, fun _ => rfl, id, id⟩
    | cons x q =>
      rw [popWord_cons hq]
      exact ⟨rfl, rfl, rfl, rfl, rfl, ⟨1, by simp [Attempt.final, hq]⟩, ⟨[.rxPop x], rfl, by simp [Attempt.final, Event.sent]⟩, id, id, id⟩
  | txann => cases inj h; exact ⟨rfl, rfl, rfl, rfl, rfl, ⟨0, rfl⟩, ⟨_, rfl, by simp [Event.sent]⟩, id, id, id⟩
  | txpush => cases inj h; exact ⟨rfl, rfl, rfl, rfl, rfl, ⟨0, rfl⟩, ⟨_, rfl, by simp [Event.sent]⟩, id, id, id⟩
  | setind sel => cases inj h; exact ⟨rfl, rfl, rfl, rfl, rfl, ⟨0, rfl⟩, ⟨_, rfl, by simp [Event.sent]⟩, id, id, id⟩
  | hold => cases inj h; exact ⟨rfl, rfl, rfl, rfl, rfl, ⟨0, rfl⟩, ⟨_, rfl, by simp [Event.sent]⟩, id, id, id⟩
  | csum off len =>
    simp only [exec, execCsum] at h
    split at h
    · cases inj h; exact ⟨rfl, rfl, rfl, rfl, rfl, ⟨0, rfl⟩, ⟨[], by simp, by simp⟩, id, id, id⟩
    · cases h
  | recv => cases inj h; exact receive_kept s
  | classify => cases inj h; exact ⟨rfl, rfl, rfl, rfl, rfl, ⟨0, rfl⟩, ⟨[], by simp, by simp⟩, id, id, id⟩
  | swapmac => cases inj h; rw [swapRange_eq]; exact ⟨rfl, rfl, rfl, rfl, rfl, ⟨0, rfl⟩, ⟨[], by simp, by simp⟩, id, id, id⟩
  | swapip => cases inj h; rw [swapRange_eq]; exact ⟨rfl, rfl, rfl, rfl, rfl, ⟨0, rfl⟩, ⟨[], by simp, by simp⟩, id, id, id⟩
  | settype => cases inj h; exact ⟨rfl, rfl, rfl, rfl, rfl, ⟨0, rfl⟩, ⟨[], by simp, by simp⟩, id, id, id⟩
  | ipcsum => cases inj h; rw [refreshChecksum_eq]; exact ⟨rfl, rfl, rfl, rfl, rfl, ⟨0, rfl⟩, ⟨[], by simp, by simp⟩, id, id, id⟩
  | icmpcsum =>
    simp only [exec, execIcmpcsum] at h
    split at h
    · cases inj h; exact ⟨rfl, rfl, rfl, rfl, rfl, ⟨0, rfl⟩, ⟨[], by simp, by simp⟩, id, fun _ => rfl, id⟩
    · split at h
      · cases inj h; rw [refreshChecksum_eq]; exact ⟨rfl, rfl, rfl, rfl, rfl, ⟨0, rfl⟩, ⟨[], by simp, by simp⟩, id, id, id⟩
      · cases h
  | xmit =>
    simp only [exec, execXmit] at h
    split at h
    · cases inj h; exact transmit_kept s
    · cases h

/-! ## The step -/

/-- What a step that answers a next state did. -/
theorem step_next {s t : State} (h : step s = .next t) :
    ∃ i u, s.halted = false ∧ decode s.fetch = .ok i ∧ exec i s = .next u ∧ t = retire s i u := by
  simp only [step] at h
  split at h
  · cases h
  · rename_i hh
    split at h
    · cases h
    · rename_i i hd
      split at h
      · rename_i u hu
        injection h with h
        exact ⟨i, u, by simpa using hh, hd, hu, h.symm⟩
      · cases h
      · cases h

/-- What the Control Loop does after an operation, case by case. -/
theorem advance_cases (t : State) (i : Instr) (rest : List Word) :
    (t.halted = true ∧ t.advance i rest = t) ∨
    (t.halted = false ∧ (t.state = .classify ∧ i = .classify ∧ t.cls = .notForUs) ∧ t.advance i rest = t.enter .wait) ∨
    (t.halted = false ∧ ¬ (t.state = .classify ∧ i = .classify ∧ t.cls = .notForUs) ∧
      ((rest = [] ∧ t.advance i rest = t.enter t.loopNext) ∨ (rest ≠ [] ∧ t.advance i rest = { t with pending := rest }))) := by
  unfold State.advance
  by_cases h1 : t.halted = true
  · exact .inl ⟨h1, if_pos h1⟩
  · rw [if_neg h1]
    have h1 : t.halted = false := by simpa using h1
    by_cases h2 : t.state = .classify ∧ i = .classify ∧ t.cls = .notForUs
    · exact .inr (.inl ⟨h1, h2, if_pos h2⟩)
    · rw [if_neg h2]
      by_cases h3 : rest = []
      · exact .inr (.inr ⟨h1, h2, .inl ⟨h3, if_pos h3⟩⟩)
      · exact .inr (.inr ⟨h1, h2, .inr ⟨h3, if_neg h3⟩⟩)

/-- The Control Loop writes nothing but its own state and what it has to issue. -/
theorem advance_eq (t : State) (i : Instr) (rest : List Word) :
    t.advance i rest = { t with state := (t.advance i rest).state, pending := (t.advance i rest).pending } := by
  rcases advance_cases t i rest with ⟨-, h⟩ | ⟨-, -, h⟩ | ⟨-, -, ⟨-, h⟩ | ⟨-, h⟩⟩ <;> rw [h] <;> rfl

/-- What follows an operation writes nothing of the engine but the Control Loop's state and what it has to issue. -/
theorem retire_eq (s : State) (i : Instr) (t : State) :
    retire s i t =
      { t with
        state := (t.advance i s.issued.tail).state, pending := (t.advance i s.issued.tail).pending
        rxq := t.rxq ++ arrivingWords t.arrivals
        rxReady := presentedReady (t.rxq ++ arrivingWords t.arrivals) t.arrivals
        arrivals := t.arrivals.tail } := by
  rw [retire, advance_eq]; rfl

/-! ## The trace and the receive queue -/

theorem next_inj {u v : State} (h : (Host.Outcome.next u : Host.Outcome State Fault Refusal) = .next v) : u = v := by
  injection h

theorem flatMap_popped_rxPop (ws : List Word) : (ws.map Event.rxPop).flatMap Event.popped = ws := by
  induction ws with
  | nil => rfl
  | cons x ws ih => simpa [Event.popped] using ih

theorem flatMap_popped_txPush (f : Nat → Word) (ks : List Nat) :
    (ks.map (fun j => Event.txPush (f j))).flatMap Event.popped = [] := by
  induction ks with
  | nil => rfl
  | cons k ks ih => simp [Event.popped]

/-- From `s` to `t` the trace only grew, and its new events say what both queues took part in. -/
def Traced (s t : State) : Prop := ∃ es, t.trace = s.trace ++ es ∧ t.txq = s.txq ++ es.flatMap Event.sent ∧ s.rxq = es.flatMap Event.popped ++ t.rxq

/-- Every operation that answers a next state is traced. -/
theorem exec_traced {i : Instr} {s t : State} (h : exec i s = .next t) : Traced s t := by
  have triv : ∀ u : State, u.trace = s.trace → u.txq = s.txq → u.rxq = s.rxq → Traced s u := fun u h1 h2 h3 =>
    ⟨[], by simp [h1], by simp [h2], by simp [h3]⟩
  cases i with
  | rxpop =>
    cases next_inj h
    cases hq : s.rxq with
    | nil => rw [popWord_nil hq]; exact triv _ rfl rfl rfl
    | cons x q => rw [popWord_cons hq]; exact ⟨[.rxPop x], rfl, by simp [Attempt.final, Event.sent], hq⟩
  | recv =>
    cases next_inj h
    rcases receive_cases s with h | ⟨h, hq⟩ | ⟨len, ws, h, hq, hl⟩ | ⟨len, ws, rest, h, hq, hl⟩
    · rw [receive_none h]; exact ⟨_, rfl, by simp [Event.sent], by simp [Event.popped]⟩
    · rw [receive_empty h hq]; exact ⟨_, rfl, by simp [Event.sent], by simp [Event.popped]⟩
    · obtain ⟨m, hm, -, -⟩ := receive_short len ws h hq hl; rw [hm]
      exact ⟨_, rfl, by simp [Event.sent, flatMap_sent_rxPop], by simp [Event.popped, flatMap_popped_rxPop, hq]⟩
    · obtain ⟨m, hm, -, -⟩ := receive_frame len ws rest h hq hl; rw [hm]
      exact ⟨_, rfl, by simp [Event.sent, flatMap_sent_rxPop], by simp [Event.popped, flatMap_popped_rxPop, hq]⟩
  | icmpcsum =>
    simp only [exec, execIcmpcsum] at h
    split at h
    · cases next_inj h; exact triv _ rfl rfl rfl
    · split at h
      · cases next_inj h; rw [refreshChecksum_eq]; exact triv _ rfl rfl rfl
      · cases h
  | xmit =>
    simp only [exec, execXmit] at h
    split at h
    · cases next_inj h
      have key : ∀ u : State, Traced s u → Traced s u.checkSent := fun u hu => by
        by_cases h : u.txSent = u.txExpect
        · rwa [checkSent_of_eq h]
        · rw [checkSent_of_ne h]; exact hu
      rw [transmit_eq]
      refine key _ ⟨_, rfl, ?_, ?_⟩
      · rw [List.flatMap_cons, flatMap_sent_txPush]; rfl
      · rw [List.flatMap_cons, flatMap_popped_txPush]; rfl
    · cases h
  | csum off len =>
    simp only [exec, execCsum] at h
    split at h
    · cases next_inj h; exact triv _ rfl rfl rfl
    · cases h
  | swapmac => cases next_inj h; rw [swapRange_eq]; exact triv _ rfl rfl rfl
  | swapip => cases next_inj h; rw [swapRange_eq]; exact triv _ rfl rfl rfl
  | ipcsum => cases next_inj h; rw [refreshChecksum_eq]; exact triv _ rfl rfl rfl
  | classify => cases next_inj h; exact triv _ rfl rfl rfl
  | settype => cases next_inj h; exact triv _ rfl rfl rfl
  | _ => cases next_inj h; exact ⟨_, rfl, by simp [Event.sent], by simp [Event.popped]⟩

end Sys2Proof.Machine
end

