-- ==== Sys2Proof/Laws/Control.lean ====
section
/-! SUPPORT. Running the Control Loop: how a step that runs a given operation comes out, and how several steps chain. -/

namespace Sys2Proof.Machine

theorem halted_congr {s t : State} (h : t.fault = s.fault) : t.halted = s.halted := by
  simp only [State.halted, h]

theorem fetch_of_pending {s : State} {x : Word} {rest : List Word} (h : s.pending = x :: rest) : s.fetch = x := by
  rw [State.fetch, State.issued, if_neg (by rw [h]; exact List.cons_ne_nil _ _), h]; rfl

theorem issued_tail_of_pending {s : State} {x : Word} {rest : List Word} (h : s.pending = x :: rest) :
    s.issued.tail = rest := by
  rw [State.issued, if_neg (by rw [h]; exact List.cons_ne_nil _ _), h]; rfl

/-- A step that runs operation `i`. -/
theorem step_of_exec {s t : State} {i : Instr} {x : Word} {rest : List Word} (hh : s.halted = false)
    (hp : s.pending = x :: rest) (hd : decode x = .ok i) (he : exec i s = .next t) : step s = .next (retire s i t) := by
  rw [step, if_neg (by rw [hh]; simp), fetch_of_pending hp, hd]
  simp only [he]

/-- What follows an operation that is not the last of its Control Loop step. -/
theorem retire_more {s t : State} {i : Instr} {x : Word} {rest : List Word} (hp : s.pending = x :: rest)
    (hr : rest ≠ []) (hh : t.halted = false) (hc : ¬ (t.state = .classify ∧ i = .classify ∧ t.cls = .notForUs)) :
    retire s i t = State.environment { t with pending := rest } := by
  rw [retire, issued_tail_of_pending hp, State.advance, if_neg (by rw [hh]; simp), if_neg hc, if_neg hr]

/-- What follows the last operation of a Control Loop step. -/
theorem retire_last {s t : State} {i : Instr} {x : Word} (hp : s.pending = [x]) (hh : t.halted = false)
    (hc : ¬ (t.state = .classify ∧ i = .classify ∧ t.cls = .notForUs)) :
    retire s i t = (t.enter t.loopNext).environment := by
  rw [retire, issued_tail_of_pending hp, State.advance, if_neg (by rw [hh]; simp), if_neg hc, if_pos rfl]

/-- What follows an operation that raised. -/
theorem retire_halted (s : State) {t : State} (i : Instr) (hh : t.halted = true) : retire s i t = t.environment := by
  rw [retire, State.advance, if_pos hh]

/-- A step that runs an operation which neither raises nor is the last of its Control Loop step. -/
theorem step_more {s t : State} {i : Instr} {x : Word} {rest : List Word} (hh : s.halted = false)
    (hp : s.pending = x :: rest) (hr : rest ≠ []) (hd : decode x = .ok i) (he : exec i s = .next t)
    (ht : t.halted = false) (hc : ¬ (t.state = .classify ∧ i = .classify ∧ t.cls = .notForUs)) :
    step s = .next (State.environment { t with pending := rest }) := by
  rw [step_of_exec hh hp hd he, retire_more hp hr ht hc]

/-- A step that runs the last operation of its Control Loop step, which does not raise. -/
theorem step_last {s t : State} {i : Instr} {x : Word} (hh : s.halted = false)
    (hp : s.pending = [x]) (hd : decode x = .ok i) (he : exec i s = .next t)
    (ht : t.halted = false) (hc : ¬ (t.state = .classify ∧ i = .classify ∧ t.cls = .notForUs)) :
    step s = .next (t.enter t.loopNext).environment := by
  rw [step_of_exec hh hp hd he, retire_last hp ht hc]

theorem coreRun_succ (M : Host.Core) (k : Nat) {s t : M.State} (h : M.step s = .next t) : M.run (k + 1) s = M.run k t := by
  simp only [Host.Core.run, h]

theorem coreRun_add (M : Host.Core) (j k : Nat) {s t : M.State} (h : M.run j s = .next t) : M.run (j + k) s = M.run k t := by
  induction j generalizing s with
  | zero =>
    have : s = t := by simpa only [Host.Core.run, Host.Outcome.next.injEq] using h
    rw [this, Nat.zero_add]
  | succ j ih =>
    rw [show j + 1 + k = (j + k) + 1 by omega]
    simp only [Host.Core.run] at h ⊢
    split at h
    · exact ih h
    · cases h
    · cases h

theorem run_zero (s : State) : Host.Core.run Sys2Proof.core 0 s = .next s := rfl

theorem run_of_step {s t : State} (k : Nat) (h : step s = .next t) :
    Host.Core.run Sys2Proof.core (k + 1) s = Host.Core.run Sys2Proof.core k t := coreRun_succ Sys2Proof.core k h

theorem run_add {s t : State} (j k : Nat) (h : Host.Core.run Sys2Proof.core j s = .next t) :
    Host.Core.run Sys2Proof.core (j + k) s = Host.Core.run Sys2Proof.core k t := coreRun_add Sys2Proof.core j k h

/-- A range read byte by byte is the list of its bytes. -/
theorem readBytes_eq_map (s : State) (a n : Nat) : s.readBytes a n = (List.range n).map (fun k => s.readByte (a + k)) := by
  induction n with
  | zero => rfl
  | succ n ih =>
    rw [readBytes_add, ih, List.range_succ, List.map_append]; rfl

/-- The bytes summed where a two-byte field of the range is zeroed first. -/
theorem readBytes_zeroed (s : State) (f off len : Nat) (h : off ≤ f) :
    (s.writeBytes f [0x00, 0x00]).readBytes off len =
      (List.range len).map (fun k => if k = f - off ∨ k = f - off + 1 then 0 else s.readByte (off + k)) := by
  rw [readBytes_eq_map]
  apply List.map_congr_left
  intro k hk
  rw [readByte_writeBytes]
  have hl : [(0x00 : Byte), 0x00].length = 2 := rfl
  rw [hl]
  by_cases h1 : k = f - off
  · rw [if_pos (by omega), if_pos (by omega), show off + k - f = 0 by omega]; rfl
  · by_cases h2 : k = f - off + 1
    · rw [if_pos (by omega), if_pos (by omega), show off + k - f = 1 by omega]; rfl
    · rw [if_neg (by omega), if_neg (by omega)]

/-- The six address bytes are compared byte by byte (42_classifier.md R131). -/
theorem readBytes_eq_stationMac (s : State) : s.readBytes 2 6 = s.cfg.stationMac.toList ↔ ∀ i < 6, s.readByte (2 + i) = s.cfg.stationMac.toList.getD i 0 := by
  have hlen : s.cfg.stationMac.toList.length = 6 := by simp
  constructor
  · intro h i hi
    rw [← h, readBytes_getD _ _ _ _ hi]
  · intro h
    apply List.ext_getElem (by simp)
    intro i h1 h2
    have := h i (by simpa using h1)
    rw [← readBytes_getD _ 2 6 i (by simpa using h1)] at this
    rw [List.getD_eq_getElem _ _ h1, List.getD_eq_getElem _ _ h2] at this
    exact this

theorem getLastD_map_range (f : Nat → Word) (n : Nat) (x : Word) :
    ((List.range n).map f).getLastD x = if n = 0 then x else f (n - 1) := by
  cases n with
  | zero => rfl
  | succ n => rw [List.range_succ, List.map_append]; simp

/-- A frame that lies in the buffer word for word is assembled as those words. -/
theorem frameWords_of_stream (s : State) (ws : List Word) (h : s.rxLen.toNat = 4 * ws.length)
    (hb : ∀ a, a < 4 * ws.length → s.readByte a = streamByte ws a) : (List.range ws.length).map s.frameWord = ws := by
  apply List.ext_getElem (by simp)
  intro k h1 h2
  rw [List.getElem_map, List.getElem_range]
  have key : ∀ j < 4, s.frameByte (4 * k + j) = wordByte ws[k] j := fun j hj => by
    rw [State.frameByte, if_pos (by omega), hb _ (by omega), streamByte, show (4 * k + j) / 4 = k by omega,
      show (4 * k + j) % 4 = j by omega, List.getD_eq_getElem _ _ h2]
  have k0 := key 0 (by omega)
  rw [Nat.add_zero] at k0
  rw [State.frameWord, k0, key 1 (by omega), key 2 (by omega), key 3 (by omega)]
  exact wordOfBytes_wordByte _

/-- What two states that differ only in the Control Loop's place and the environment's part share. -/
theorem SameEngine.fields {s t : State} (h : SameEngine s t) :
    t.cfg = s.cfg ∧ t.mem = s.mem ∧ t.bitLen = s.bitLen ∧ t.rxLen = s.rxLen ∧ t.rxOut = s.rxOut ∧ t.cls = s.cls ∧
      t.csum = s.csum ∧ t.ind = s.ind ∧ t.fault = s.fault ∧ t.txq = s.txq ∧ t.trace = s.trace := by
  unfold SameEngine at h
  rw [h]
  exact ⟨rfl, rfl, rfl, rfl, rfl, rfl, rfl, rfl, rfl, rfl, rfl⟩

/-- `t` is `s` but for the buffer, `csum`, the Control Loop's place and the environment's part. -/
def SameButBuffer (s t : State) : Prop := SameEngine { s with mem := t.mem, csum := t.csum } t

theorem SameButBuffer.trans {s t u : State} (h : SameButBuffer s t) (k : SameButBuffer t u) : SameButBuffer s u := by
  cases s; cases t; cases u
  simp only [SameButBuffer, SameEngine, State.mk.injEq] at *
  simp_all

end Sys2Proof.Machine
end

