-- ==== Sys2Proof/Laws/Invariants.lean ====
section
/-! SUPPORT. What the invariants need of each operation: the engine's own data is kept, the registers the Control Loop branches on are written by RECV and CLASS alone, and the word a Control Loop state issues is one of its own operations. -/

namespace Sys2Proof.Machine

/-- `rxOut` and `cls` are written by RECV and CLASS alone (10_state.md R27). -/
theorem decisions_exec {i : Instr} {s u : State} (hu : exec i s = .next u) (h1 : i ≠ .recv) (h2 : i ≠ .classify) : u.rxOut = s.rxOut ∧ u.cls = s.cls := by
  cases i with
  | recv => exact absurd rfl h1
  | classify => exact absurd rfl h2
  | rxpop =>
    cases next_inj hu
    cases hq : s.rxq with
    | nil => rw [popWord_nil hq]; exact ⟨rfl, rfl⟩
    | cons x q => rw [popWord_cons hq]; exact ⟨rfl, rfl⟩
  | icmpcsum =>
    simp only [exec, execIcmpcsum] at hu
    split at hu
    · cases next_inj hu; exact ⟨rfl, rfl⟩
    · split at hu
      · cases next_inj hu; rw [refreshChecksum_eq]; exact ⟨rfl, rfl⟩
      · cases hu
  | xmit =>
    simp only [exec, execXmit] at hu
    split at hu
    · cases next_inj hu
      rw [transmit_eq]
      unfold State.checkSent
      split <;> exact ⟨rfl, rfl⟩
    · cases hu
  | csum off len =>
    simp only [exec, execCsum] at hu
    split at hu
    · cases next_inj hu; exact ⟨rfl, rfl⟩
    · cases hu
  | swapmac => cases next_inj hu; rw [swapRange_eq]; exact ⟨rfl, rfl⟩
  | swapip => cases next_inj hu; rw [swapRange_eq]; exact ⟨rfl, rfl⟩
  | ipcsum => cases next_inj hu; rw [refreshChecksum_eq]; exact ⟨rfl, rfl⟩
  | _ => cases next_inj hu; exact ⟨rfl, rfl⟩

/-- The data invariant over one operation. -/
theorem dataInv_exec {i : Instr} {s u : State} (h : DataInv s) (hh : s.halted = false) (hu : exec i s = .next u) : DataInv u := by
  have hk := exec_kept hu
  have hsent : u.txq = u.trace.flatMap Event.sent := by
    obtain ⟨es, h1, h2⟩ := hk.traced
    rw [h1, h2, h.sent, List.flatMap_append]
  have same : u.mem = s.mem → u.byteCount = s.byteCount → u.bitLen = s.bitLen → u.wordCount = s.wordCount → u.rxLen = s.rxLen → u.ind = s.ind → u.settleLeft = s.settleLeft → DataInv u := by
    intro m b l w r d t
    have c := hk.cfg
    exact ⟨by rw [c, m]; exact h.memory, by rw [b, l]; exact h.bytes, by rw [w, l]; exact h.words, by rw [r]; exact h.length, by rw [r]; exact h.aligned, fun _ => by rw [r, w]; exact h.received hh, by rw [d, c]; exact h.indicator, by rw [t]; exact h.settled, hsent⟩
  have memonly : Memory.wf s.cfg u.mem → u.byteCount = s.byteCount → u.bitLen = s.bitLen → u.wordCount = s.wordCount → u.rxLen = s.rxLen → u.ind = s.ind → u.settleLeft = s.settleLeft → DataInv u := by
    intro m b l w r d t
    have c := hk.cfg
    exact ⟨by rw [c]; exact m, by rw [b, l]; exact h.bytes, by rw [w, l]; exact h.words, by rw [r]; exact h.length, by rw [r]; exact h.aligned, fun _ => by rw [r, w]; exact h.received hh, by rw [d, c]; exact h.indicator, by rw [t]; exact h.settled, hsent⟩
  cases i with
  | rxpop =>
    cases next_inj hu
    cases hq : s.rxq with
    | nil => rw [popWord_nil hq] at same ⊢; exact same rfl rfl rfl rfl rfl rfl rfl
    | cons x q => rw [popWord_cons hq] at same ⊢; exact same rfl rfl rfl rfl rfl rfl rfl
  | setind sel => cases next_inj hu; exact ⟨h.memory, h.bytes, h.words, h.length, h.aligned, fun _ => h.received hh, ⟨sel, rfl⟩, h.settled, hsent⟩
  | hold =>
    have := execHold_eq s
    rw [show execHold s = exec .hold s from rfl, hu] at this
    cases next_inj this
    exact ⟨h.memory, h.bytes, h.words, h.length, h.aligned, fun _ => h.received hh, h.indicator, rfl, hsent⟩
  | recv =>
    cases next_inj hu
    rcases receive_cases s with h1 | ⟨h1, hq⟩ | ⟨len, ws, h1, hq, hl⟩ | ⟨len, ws, rest, h1, hq, hl⟩
    · rw [receive_none h1] at same ⊢; exact same rfl rfl rfl rfl rfl rfl rfl
    · rw [receive_empty h1 hq] at same ⊢; exact same rfl rfl rfl rfl rfl rfl rfl
    · obtain ⟨m, hm, hw, -⟩ := receive_short len ws h1 hq hl
      rw [hm] at hsent ⊢
      refine ⟨hw h.memory, rfl, rfl, h.length, h.aligned, fun hf => ?_, h.indicator, h.settled, hsent⟩
      rw [State.halted, any_add] at hf; cases hf
    · obtain ⟨m, hm, hw, -⟩ := receive_frame len ws rest h1 hq hl
      rw [hm] at hsent ⊢
      refine ⟨hw h.memory, rfl, rfl, ?_, ?_, fun hf => ?_, h.indicator, h.settled, hsent⟩
      all_goals simp only [BitVec.toNat_ofNat]
      · omega
      · omega
      · rw [hl]; omega
  | icmpcsum =>
    simp only [exec, execIcmpcsum] at hu
    split at hu
    · cases next_inj hu; exact same rfl rfl rfl rfl rfl rfl rfl
    · split at hu
      · cases next_inj hu
        have hw := wf_refreshChecksum h.memory 38 36 (s.rxLen.toNat - 36) (by omega)
        have hf := refreshChecksum_eq s 38 36 (s.rxLen.toNat - 36)
        generalize s.refreshChecksum 38 36 (s.rxLen.toNat - 36) = v at *
        rw [hf] at memonly
        rw [hf]
        exact memonly hw rfl rfl rfl rfl rfl rfl
      · cases hu
  | xmit =>
    simp only [exec, execXmit] at hu
    split at hu
    · cases next_inj hu
      have hf := transmit_fields s
      generalize transmit s = v at *
      rw [hf] at same
      rw [hf]
      exact same rfl rfl rfl rfl rfl rfl rfl
    · cases hu
  | csum off len =>
    simp only [exec, execCsum] at hu
    split at hu
    · cases next_inj hu; exact same rfl rfl rfl rfl rfl rfl rfl
    · cases hu
  | swapmac =>
    cases next_inj hu
    have hw := wf_swapRange h.memory 2 8 6 (by omega) (by omega)
    have hf := swapRange_eq s 2 8 6
    generalize s.swapRange 2 8 6 = v at *
    rw [hf] at memonly
    rw [hf]
    exact memonly hw rfl rfl rfl rfl rfl rfl
  | swapip =>
    cases next_inj hu
    have hw := wf_swapRange h.memory 28 32 4 (by omega) (by omega)
    have hf := swapRange_eq s 28 32 4
    generalize s.swapRange 28 32 4 = v at *
    rw [hf] at memonly
    rw [hf]
    exact memonly hw rfl rfl rfl rfl rfl rfl
  | ipcsum =>
    cases next_inj hu
    have hw := wf_refreshChecksum h.memory 26 16 20 (by omega)
    have hf := refreshChecksum_eq s 26 16 20
    generalize s.refreshChecksum 26 16 20 = v at *
    rw [hf] at memonly
    rw [hf]
    exact memonly hw rfl rfl rfl rfl rfl rfl
  | settype => cases next_inj hu; exact memonly (wf_writeByte h.memory (by omega) 0) rfl rfl rfl rfl rfl rfl
  | rxrdy => cases next_inj hu; exact same rfl rfl rfl rfl rfl rfl rfl
  | txann => cases next_inj hu; exact same rfl rfl rfl rfl rfl rfl rfl
  | txpush => cases next_inj hu; exact same rfl rfl rfl rfl rfl rfl rfl
  | classify => cases next_inj hu; exact same rfl rfl rfl rfl rfl rfl rfl

/-- The next operation of a state that issues its own Control Loop step (46_control_loop.md R190). -/
theorem loop_op {s : State} (h : IssuesLoop s) : ∃ i rest, s.fetch = encode i ∧ decode s.fetch = .ok i ∧ i ∈ loopOps s.state ∧ s.pending = encode i :: rest ∧ s.issued.tail = rest ∧ (rest ≠ [] → rest <:+ loopWords s.state) ∧ (rest = [] → i = (loopOps s.state).getLast (by cases s.state <;> decide)) := by
  obtain ⟨hp, hs⟩ := h
  have key : ∀ q : LoopState, ∀ p, p ≠ [] → p <:+ loopWords q → ∃ i rest, p = encode i :: rest ∧ decode (encode i) = .ok i ∧ i ∈ loopOps q ∧ (rest ≠ [] → rest <:+ loopWords q) ∧ (rest = [] → i = (loopOps q).getLast (by cases q <;> decide)) := by
    intro q p hp hs
    have : p ∈ (loopWords q).tails := by rwa [List.mem_tails]
    cases q <;> simp [loopWords, loopOps, Pseudo.expand, List.tails, hp] at this
    · subst this; exact ⟨.recv, [], rfl, rfl, by simp [loopOps], by simp, fun _ => rfl⟩
    · rcases this with rfl | rfl
      · exact ⟨.classify, _, rfl, rfl, by simp [loopOps], fun _ => ⟨[encode .classify], rfl⟩, by simp⟩
      · exact ⟨.setind .frameRx, _, rfl, rfl, by simp [loopOps], by simp, fun _ => rfl⟩
    · rcases this with rfl | rfl | rfl | rfl | rfl
      · exact ⟨.swapmac, _, rfl, rfl, by simp [loopOps, Pseudo.expand], fun _ => ⟨[encode .swapmac], rfl⟩, by simp⟩
      · exact ⟨.swapip, _, rfl, rfl, by simp [loopOps, Pseudo.expand], fun _ => ⟨[encode .swapmac, encode .swapip], rfl⟩, by simp⟩
      · exact ⟨.settype, _, rfl, rfl, by simp [loopOps, Pseudo.expand], fun _ => ⟨[encode .swapmac, encode .swapip, encode .settype], rfl⟩, by simp⟩
      · exact ⟨.ipcsum, _, rfl, rfl, by simp [loopOps, Pseudo.expand], fun _ => ⟨[encode .swapmac, encode .swapip, encode .settype, encode .ipcsum], rfl⟩, by simp⟩
      · exact ⟨.icmpcsum, _, rfl, rfl, by simp [loopOps, Pseudo.expand], by simp, fun _ => rfl⟩
    · subst this; exact ⟨.xmit, [], rfl, rfl, by simp [loopOps], by simp, fun _ => rfl⟩
    · rcases this with rfl | rfl
      · exact ⟨.hold, _, rfl, rfl, by simp [loopOps, Pseudo.expand], fun _ => ⟨[encode .hold], rfl⟩, by simp⟩
      · exact ⟨.setind .idleDone, _, rfl, rfl, by simp [loopOps, Pseudo.expand], by simp, fun _ => rfl⟩
  obtain ⟨i, rest, h1, h2, h3, h4, h5⟩ := key s.state s.pending hp hs
  have hf := fetch_of_pending h1
  exact ⟨i, rest, hf, by rw [hf]; exact h2, h3, h1, issued_tail_of_pending h1, h4, h5⟩

/-! ## The environment's duties (45_interface.md R177) -/

theorem WholeFrames.append {p q : List Word} (hp : WholeFrames p) (hq : WholeFrames q) : WholeFrames (p ++ q) := by
  induction hp with
  | nil => exact hq
  | frame len payload rest hl _ ih => simpa [List.append_assoc] using WholeFrames.frame len payload _ hl ih

/-- A queue of whole frames that is not empty has one at its head. -/
theorem WholeFrames.head {q : List Word} (h : WholeFrames q) (hq : q ≠ []) : FrameAtHead q := by
  cases h with
  | nil => exact absurd rfl hq
  | frame len payload rest hl _ => exact ⟨len, payload, rest, rfl, hl⟩

/-- A queue with a whole frame at its head is not empty. -/
theorem FrameAtHead.ne_nil {q : List Word} (h : FrameAtHead q) : q ≠ [] := by
  obtain ⟨len, payload, rest, rfl, -⟩ := h
  exact List.cons_ne_nil _ _

/-- RECV where the duties are kept takes nothing or one whole frame, and does not raise. -/
theorem receive_of_duties {s : State} (h : DutiesKept s) :
    WholeFrames (receive s).rxq ∧ (receive s).fault = s.fault := by
  rcases receive_cases s with h1 | ⟨h1, hq⟩ | ⟨len, ws, h1, hq, hl⟩ | ⟨len, ws, rest, h1, hq, hl⟩
  · rw [receive_none h1]; exact ⟨h.queue, rfl⟩
  · exact absurd hq (h.ready h1).ne_nil
  · obtain ⟨l, p, r, he, hp⟩ := h.ready h1
    rw [hq] at he
    injection he with e1 e2
    rw [e2, e1, List.length_append] at hl
    omega
  · obtain ⟨m, hm, -, -⟩ := receive_frame len ws rest h1 hq hl
    rw [hm]
    refine ⟨?_, rfl⟩
    have hw := h.queue
    rw [hq] at hw
    generalize hx : len :: (ws ++ rest) = x at hw
    cases hw with
    | nil => cases hx
    | frame l p r hp hr =>
      injection hx with e1 e2
      subst e1
      show WholeFrames rest
      rw [(List.append_inj e2 (by rw [hl, hp])).2]
      exact hr

/-- The receive queue and RX_UNDERFLOW are touched by RXPOP and RECV alone (20_memory.md R50). -/
theorem exec_keeps_rxq {i : Instr} {s u : State} (hu : exec i s = .next u) (h1 : i ≠ .recv) (h2 : i ≠ .rxpop) :
    u.rxq = s.rxq ∧ u.fault.rxUnderflow = s.fault.rxUnderflow := by
  cases i with
  | recv => exact absurd rfl h1
  | rxpop => exact absurd rfl h2
  | icmpcsum =>
    simp only [exec, execIcmpcsum] at hu
    split at hu
    · cases next_inj hu; exact ⟨rfl, rfl⟩
    · split at hu
      · cases next_inj hu; rw [refreshChecksum_eq]; exact ⟨rfl, rfl⟩
      · cases hu
  | xmit =>
    simp only [exec, execXmit] at hu
    split at hu
    · cases next_inj hu
      rw [transmit_eq]
      unfold State.checkSent
      split <;> exact ⟨rfl, rfl⟩
    · cases hu
  | csum off len =>
    simp only [exec, execCsum] at hu
    split at hu
    · cases next_inj hu; exact ⟨rfl, rfl⟩
    · cases hu
  | swapmac => cases next_inj hu; rw [swapRange_eq]; exact ⟨rfl, rfl⟩
  | swapip => cases next_inj hu; rw [swapRange_eq]; exact ⟨rfl, rfl⟩
  | ipcsum => cases next_inj hu; rw [refreshChecksum_eq]; exact ⟨rfl, rfl⟩
  | _ => cases next_inj hu; exact ⟨rfl, rfl⟩

end Sys2Proof.Machine
end

