-- ==== Sys2Proof/Laws/PerInstr.lean ====
section
/-! SUPPORT. Facts made per instruction: every operation word is of format OP, its opcode in bits 7 to 0, its operands in bits 15 to 8 and 23 to 16, and zero in bits 31 to 24 (30_encoding.md R80, R81). -/

namespace Sys2Proof.Laws.OpcodeField

open Sys2Proof

/-- The fields of an instruction's word are its opcode, its operands and zero. -/
def Statement (i : Instr) : Prop :=
  fieldOp (encode i) = i.opcode ∧ fieldA (encode i) = i.operandA ∧ fieldB (encode i) = i.operandB ∧ fieldZ (encode i) = 0

/-- The fields of a word put together from four bytes. -/
theorem fields_append (z b a op : Byte) :
    fieldOp (z ++ b ++ a ++ op) = op ∧ fieldA (z ++ b ++ a ++ op) = a ∧
      fieldB (z ++ b ++ a ++ op) = b ∧ fieldZ (z ++ b ++ a ++ op) = z := by
  refine ⟨?_, ?_, ?_, ?_⟩ <;> apply BitVec.eq_of_getLsbD_eq <;> intro i hi <;>
    simp only [fieldOp, fieldA, fieldB, fieldZ, BitVec.getLsbD_extractLsb', BitVec.getLsbD_append] <;>
    rw [decide_eq_true hi, Bool.true_and]
  · rw [if_pos (by omega)]; congr 1; omega
  · rw [if_neg (by omega), if_pos (by omega)]; congr 1; omega
  · rw [if_neg (by omega), if_neg (by omega), if_pos (by omega)]; congr 1; omega
  · rw [if_neg (by omega), if_neg (by omega), if_neg (by omega)]; congr 1; omega

theorem rxrdy : Statement .rxrdy := fields_append _ _ _ _
theorem rxpop : Statement .rxpop := fields_append _ _ _ _
theorem txann : Statement .txann := fields_append _ _ _ _
theorem txpush : Statement .txpush := fields_append _ _ _ _
theorem setind (sel : Selector) : Statement (.setind sel) := fields_append _ _ _ _
theorem hold : Statement .hold := fields_append _ _ _ _
theorem csum (off len : Byte) : Statement (.csum off len) := fields_append _ _ _ _
theorem recv : Statement .recv := fields_append _ _ _ _
theorem classify : Statement .classify := fields_append _ _ _ _
theorem swapmac : Statement .swapmac := fields_append _ _ _ _
theorem swapip : Statement .swapip := fields_append _ _ _ _
theorem settype : Statement .settype := fields_append _ _ _ _
theorem ipcsum : Statement .ipcsum := fields_append _ _ _ _
theorem icmpcsum : Statement .icmpcsum := fields_append _ _ _ _
theorem xmit : Statement .xmit := fields_append _ _ _ _

end Sys2Proof.Laws.OpcodeField
end

