-- ==== Sys2Proof/Tests/Slice0.lean ====
section
/-! SUPPORT. Tests of the model on the vectors of 95_test_vectors.md and the examples of the rules, and for every statement with hypotheses a witness that meets them. -/

namespace Sys2Proof.Tests

open Sys2Proof Sys2Proof.Machine

/-! ## Small states -/

/-- The configuration of 95_test_vectors.md: the source's station address, an all-zero INIT_BUF; slack 4 and distinct codes chosen here. -/
def testConfig : Config where
  stationMac := #v[0x02, 0x00, 0x00, 0x00, 0x00, 0x01]
  oversizeSlack := 4
  statusIdleWait := 10
  statusFrameRx := 11
  statusIdleDone := 12
  settleDelay := 3
  initBuf := Vector.replicate 128 0

/-- The reset state over that configuration, with an environment that does nothing more. -/
def base : State := { State.reset with cfg := testConfig, ind := 10, arrivals := [] }

/-- The receive words of V-E2E-1. -/
def requestWords : List Word :=
  [0x00020000, 0x01000000, 0xDDCCBBAA, 0x0008FFEE, 0x20000045, 0x00000000, 0xDB660140, 0x0200000A,
    0x0100000A, 0x37330008, 0x01000100, 0x64636261]

/-- V-E2E-1 in the buffer, as RECV leaves it. -/
def request : State :=
  { base.writeBytes 0 (requestWords.flatMap wordBytes) with
    bitLen := 384, byteCount := 48, wordCount := 12, rxLen := 48, rxOut := .frame }

/-- A state at the start of WAIT with these words queued. -/
def queued (q : List Word) : State := { base with rxq := q, rxReady := true }

/-- A state at the start of a Control Loop step. -/
def atStep (q : LoopState) (s : State) : State := { s with state := q, pending := loopWords q }

/-- An outcome is a next state with a property. -/
def nextWith (o : Host.Outcome State Fault Refusal) (p : State → Bool) : Bool :=
  match o with
  | .next t => p t
  | .fault _ => false
  | .refused _ => false

theorem of_nextWith {o : Host.Outcome State Fault Refusal} {p : State → Bool} (h : nextWith o p = true) :
    ∃ t, o = .next t ∧ p t = true := by
  cases o with
  | next t => exact ⟨t, rfl, h⟩
  | fault _ => cases h
  | refused _ => cases h

/-! ## Well-formedness -/

theorem test_wf_refuses_range_beyond_buffer : (Instr.csum 1 128).wf = false := by decide
theorem test_wf_takes_largest_range : (Instr.csum 0 128).wf = true := by decide

/-! ## Decoding: words written out from 30_encoding.md R82 and R85, and V-EN -/

theorem test_decode_rxrdy : decode 0x00000001 = .ok .rxrdy := by decide
theorem test_decode_rxpop : decode 0x00000002 = .ok .rxpop := by decide
theorem test_decode_txann : decode 0x00000003 = .ok .txann := by decide
theorem test_decode_txpush : decode 0x00000004 = .ok .txpush := by decide
theorem test_decode_setind : decode 0x00000005 = .ok (.setind .idleWait) ∧
    decode 0x00000105 = .ok (.setind .frameRx) ∧ decode 0x00000205 = .ok (.setind .idleDone) := by decide
theorem test_decode_hold : decode 0x00000006 = .ok .hold := by decide
theorem test_decode_csum : decode 0x00141010 = .ok (.csum 16 20) ∧ decode 0x000C2410 = .ok (.csum 36 12) ∧
    decode 0x00800010 = .ok (.csum 0 128) := by decide
theorem test_decode_recv : decode 0x00000020 = .ok .recv := by decide
theorem test_decode_class : decode 0x00000030 = .ok .classify := by decide
theorem test_decode_swapmac : decode 0x00000040 = .ok .swapmac := by decide
theorem test_decode_swapip : decode 0x00000041 = .ok .swapip := by decide
theorem test_decode_settype : decode 0x00000042 = .ok .settype := by decide
theorem test_decode_ipcsum : decode 0x00000043 = .ok .ipcsum := by decide
theorem test_decode_icmpcsum : decode 0x00000044 = .ok .icmpcsum := by decide
theorem test_decode_xmit : decode 0x00000050 = .ok .xmit := by decide

/-- V-EN-6, V-EN-12, V-EN-13, V-EN-14 and CSUM 1, 128. -/
theorem test_decode_refuses : decode 0x00000305 = .bad .selectorOutOfRange ∧ decode 0x00000120 = .bad .operandNotZero ∧
    decode 0x01000020 = .bad .reservedBitsSet ∧ decode 0x00000000 = .bad .unassignedOpcode ∧
    decode 0x00000045 = .bad .unassignedOpcode ∧ decode 0x000000FF = .bad .unassignedOpcode ∧
    decode 0x00800110 = .bad .rangeBeyondBuffer ∧ decode 0x00010005 = .bad .operandNotZero := by decide

theorem test_table_word : decodeTableWord 32 0x00141010 = some (.csum 16 20) ∧ decodeTableWord 8 0x50 = some .xmit ∧
    decodeTableWord 40 0x100000050 = none := by decide

/-- The example of R85, both ways, and the expansion of R86. -/
theorem test_assembler_csum : assembleLine "CSUM 16, 0x14 ; header" = some [.csum 16 20] ∧
    printInstr (.csum 16 20) = "CSUM 16, 20" := by decide
theorem test_assembler_pseudo : assembleLine "SETTLE" = some [.hold, .setind .idleDone] ∧
    printPseudo .settle = ["HOLD", "SETIND IDLE_DONE"] := by decide

/-! ## Operations -/

/-- V-IF-2. -/
theorem test_rxrdy : nextWith (exec .rxrdy base) (fun t => !t.ready && t.trace == [.rxReady false]) = true := by decide

/-- The example of R172. -/
theorem test_rxpop : nextWith (exec .rxpop (queued [0x180, 0x20000]))
    (fun t => t.w == 0x180 && t.rxq == [0x20000] && t.trace == [.rxPop 0x180]) = true := by decide

/-- V-IF-1. -/
theorem test_rxpop_empty : nextWith (exec .rxpop base) (fun t => t.fault.rxUnderflow && t.trace == []) = true := by decide

/-- The example of R173. -/
theorem test_txann : nextWith (exec .txann request)
    (fun t => t.txExpect == 12 && t.txSent == 0 && t.trace == [.txAnnounce 384]) = true := by decide

/-- The example of R174. -/
theorem test_txpush : nextWith (exec .txpush { base with w := 0xBBAA0000 })
    (fun t => t.txSent == 1 && t.txq == [0xBBAA0000] && t.trace == [.txPush 0xBBAA0000]) = true := by decide

/-- V-IF-3, its second write. -/
theorem test_setind : nextWith (exec (.setind .frameRx) { base with ind := 11 })
    (fun t => t.ind == 11 && t.trace == [.setIndicator 11]) = true := by decide

/-- The example of R176. -/
theorem test_hold : nextWith (exec .hold base) (fun t => t.settleLeft == 0 && t.trace == [.hold 3]) = true := by decide

/-- V-CS-13: the completed header of V-E2E-1 sums to zero. -/
theorem test_csum : nextWith (exec (.csum 16 20) request) (fun t => t.csum == 0x0000) = true := by decide

/-- V-CS-9 and V-CS-11: an odd last byte is a high byte. -/
theorem test_checksum_odd : checksum [0x01, 0x02, 0x03] = 0xFBFD ∧ checksum [0x80, 0x00, 0x80] = 0xFFFE := by decide

/-- V-RX-6 with V-RX-16: 33 bits are 5 bytes, two words, least significant byte first. -/
theorem test_recv : nextWith (exec .recv (queued [33, 0x44332211, 0x55]))
    (fun t => t.byteCount == 5 && t.wordCount == 2 && t.rxLen == 8 && t.rxOut == .frame && t.rxq == [] &&
      t.readBytes 0 5 == [0x11, 0x22, 0x33, 0x44, 0x55]) = true := by decide

/-- V-RX-15: one pop, then the fault. -/
theorem test_recv_underflow : nextWith (exec .recv (queued [384]))
    (fun t => t.fault.rxUnderflow && t.rxLen == 0 && t.trace == [.rxReady true, .rxPop 384]) = true := by decide

/-- V-CL-1. -/
theorem test_class : nextWith (exec .classify request) (fun t => t.cls == .echoRequest) = true := by decide

/-- V-CL-8 and V-CL-5: the first failing check decides; the EtherType is big-endian. -/
theorem test_class_order : ((request.writeByte 7 0x02).writeByte 15 0x06).frameClass = .notForUs ∧
    ((request.writeByte 14 0x00).writeByte 15 0x08).frameClass = .notIpv4 := by decide

/-- V-MU-1. -/
theorem test_swapmac : nextWith (exec .swapmac request) (fun t => t.readBytes 2 12 ==
    [0xAA, 0xBB, 0xCC, 0xDD, 0xEE, 0xFF, 0x02, 0x00, 0x00, 0x00, 0x00, 0x01]) = true := by decide

/-- V-MU-2. -/
theorem test_swapip : nextWith (exec .swapip request) (fun t => t.readBytes 28 8 ==
    [0x0A, 0x00, 0x00, 0x01, 0x0A, 0x00, 0x00, 0x02]) = true := by decide

/-- V-MU-3. -/
theorem test_settype : nextWith (exec .settype request)
    (fun t => t.readByte 36 == 0 && t.readBytes 37 11 == request.readBytes 37 11) = true := by decide

/-- V-MU-4: the sum is the same before SWAPIP (43_mutator.md R148). -/
theorem test_ipcsum : nextWith (exec .ipcsum request)
    (fun t => t.csum == 0x66DB && t.readBytes 26 2 == [0x66, 0xDB]) = true := by decide

/-- V-MU-5. -/
theorem test_icmpcsum : nextWith (exec .icmpcsum (request.writeByte 36 0))
    (fun t => t.csum == 0x3B37 && t.readBytes 38 2 == [0x3B, 0x37]) = true := by decide

/-- V-MU-8. -/
theorem test_icmpcsum_short : nextWith (exec .icmpcsum { request with rxLen := 32 })
    (fun t => t.fault.icmpShort == some 32 && t.readBytes 38 2 == [0x33, 0x37]) = true := by decide

/-- V-TX-3: zero padding beyond the receive length. -/
theorem test_xmit : nextWith (exec .xmit
      { base.writeBytes 0 [0x11, 0x22, 0x33, 0x44, 0x55, 0x66, 0x77] with rxLen := 6, bitLen := 48 })
    (fun t => t.txq == [48, 0x44332211, 0x00006655] && !t.halted) = true := by decide

/-- V-TX-4: a slack-band frame. -/
theorem test_xmit_mismatch : nextWith (exec .xmit { base with rxLen := 128, bitLen := 1032 })
    (fun t => t.fault.txMismatch == some (33, 32)) = true := by decide

/-! ## The step -/

theorem test_step_refuses : (match step (base.withFetchWord 32 0x00000045) with
    | .refused e => decide (e = .illegalWord .unassignedOpcode) | _ => false) = true := by decide

theorem test_step_foreign_frame : nextWith (step (atStep .classify (request.writeByte 7 0x02)))
    (fun t => t.state == .wait && t.ind == 10 && t.trace == []) = true := by decide

/-! ## Witnesses: for every statement with hypotheses, what meets them -/

theorem witness_DecodeOfEncode : (Instr.csum 0 128).wf = true ∧ (Instr.csum 128 0).wf = true := by decide

theorem witness_DecodedWord : decode 0x00800010 = .ok (.csum 0 128) := by decide

theorem witness_LegalWords : (base.withFetchWord 32 0x00800110).halted = false ∧
    (base.withFetchWord 32 0x00800110).fetch = 0x00800110 ∧ ((0x00800110 : Word).toNat / 2 ^ 8 % 256 + 128 = 129) := by decide

theorem witness_Assembler : (Instr.csum 128 0).wf = true := by decide

theorem witness_StepRuns_next : base.halted = false ∧ decode base.fetch = .ok .recv ∧
    ∃ t, exec .recv base = .next t := ⟨by decide, by decide, _, rfl⟩

theorem witness_StepRuns_fault : (atStep .transmit { base with rxLen := 129 }).halted = false ∧
    decode (atStep .transmit { base with rxLen := 129 }).fetch = .ok .xmit ∧
    exec .xmit (atStep .transmit { base with rxLen := 129 }) = .fault .offsetOutOfBuffer :=
  ⟨by decide, by decide, rfl⟩

theorem witness_Rxpop : (queued [7]).rxq = 7 :: [] ∧ base.rxq = [] := ⟨rfl, rfl⟩

theorem witness_Txpush : ({ base with txSent := 0xFFFFFFE } : State).txSent.toNat + 1 < 2 ^ 28 := by decide

theorem witness_Csum : (0 : Byte).toNat + (128 : Byte).toNat ≤ 128 := by decide

theorem witness_CsumBeyond : 128 < (1 : Byte).toNat + (128 : Byte).toNat := by decide

theorem witness_Folding : 0xFFFF < 0x10000 := by decide

theorem witness_StoredChecksum : (requestWords.flatMap wordBytes).length % 2 = 0 ∧ ([] : List Byte).length % 2 = 0 := by decide

theorem witness_WordReceived : 4 * 31 + 4 ≤ ({ base with rxLen := 128 } : State).rxLen.toNat := by decide

theorem witness_RecvNothing : base.rxReady = false := rfl

/-- A frame of no bits, and one at each side of the oversize guard: 132 and 133 bytes with a slack of 4. -/
theorem witness_RecvMoves :
    ((queued [0]).rxReady = true ∧ (queued [0]).rxq = 0 :: ([] ++ []) ∧ ([] : List Word).length = (((0 : Word).toNat + 7) / 8 + 3) / 4) ∧
    ((queued (1056 :: List.replicate 33 5)).rxq = 1056 :: (List.replicate 33 5 ++ []) ∧
      (List.replicate 33 (5 : Word)).length = (((1056 : Word).toNat + 7) / 8 + 3) / 4) ∧
    ((queued (1064 :: (List.replicate 34 5 ++ [9]))).rxq = 1064 :: (List.replicate 34 5 ++ [9]) ∧
      (List.replicate 34 (5 : Word)).length = (((1064 : Word).toNat + 7) / 8 + 3) / 4) := by decide

theorem witness_RecvShort : ((queued []).rxReady = true ∧ (queued []).rxq = []) ∧
    ((queued [384]).rxReady = true ∧ (queued [384]).rxq = 384 :: [] ∧
      ([] : List Word).length < (((384 : Word).toNat + 7) / 8 + 3) / 4) := by decide

/-- One state for each class. -/
theorem witness_Class : (request.writeByte 7 0x02).frameClass = .notForUs ∧ (request.writeByte 15 0x06).frameClass = .notIpv4 ∧
    (request.writeByte 25 0x11).frameClass = .notIcmp ∧ (request.writeByte 36 0x00).frameClass = .notEchoRequest ∧
    request.frameClass = .echoRequest ∧
    (∀ i < 6, request.readByte (2 + i) = request.cfg.stationMac.toList.getD i 0) := by decide

theorem witness_ClassReads : base.cfg.stationMac = (base.writeByte 37 5).cfg.stationMac ∧
    ∀ a ∈ [2, 3, 4, 5, 6, 7, 14, 15, 25, 36], base.readByte a = (base.writeByte 37 5).readByte a := by decide

theorem witness_SwapsTwice : Memory.wf request.cfg request.mem := by decide

theorem witness_Icmpcsum : (36 ≤ ({ base with rxLen := 36 } : State).rxLen.toNat ∧ ({ base with rxLen := 36 } : State).rxLen.toNat ≤ 128) ∧
    36 ≤ ({ base with rxLen := 128 } : State).rxLen.toNat ∧ ({ base with rxLen := 35 } : State).rxLen.toNat < 36 := by decide

theorem witness_ReadsBeyond : 128 < ({ base with rxLen := 129 } : State).rxLen.toNat := by decide

/-- V-E2E-1: its ICMP checksum is correct over the received range. -/
theorem witness_MessageChecksum : 40 ≤ request.rxLen.toNat ∧ request.rxLen.toNat ≤ 128 ∧ request.readByte 36 = 8 ∧
    checksum ((List.range (request.rxLen.toNat - 36)).map (fun k => if k = 2 ∨ k = 3 then 0 else request.readByte (36 + k))) =
      request.readByte 38 ++ request.readByte 39 := by decide

/-- Receive lengths at the bound, and frames of 128 and 129 bytes. -/
theorem witness_Xmit : (({ base with rxLen := 128, bitLen := 1024 } : State).rxLen.toNat =
      min (4 * ((((1024 : Word).toNat + 7) / 8 + 3) / 4)) 128 ∧ ((1024 : Word).toNat + 7) / 8 ≤ 128) ∧
    (({ base with rxLen := 128, bitLen := 1025 } : State).rxLen.toNat =
      min (4 * ((((1025 : Word).toNat + 7) / 8 + 3) / 4)) 128 ∧ 128 < ((1025 : Word).toNat + 7) / 8) ∧ ({ base with rxLen := 128 } : State).rxLen.toNat ≤ 128 ∧ base.rxLen.toNat ≤ 128 := by decide

theorem witness_FrameSentBack : (queued (384 :: (requestWords ++ [9]))).rxReady = true ∧
    requestWords.length = (((384 : Word).toNat + 7) / 8 + 3) / 4 ∧ ((384 : Word).toNat + 7) / 8 ≤ 128 ∧
    (List.replicate 32 (5 : Word)).length = (((1024 : Word).toNat + 7) / 8 + 3) / 4 ∧ ((1024 : Word).toNat + 7) / 8 ≤ 128 := by decide

/-- A WAIT step that raises, one that receives, and one that sees nothing. -/
theorem witness_WaitStep : AtStart .wait (queued []) ∧ AtStart .wait base ∧
    nextWith (step (queued [])) (fun t => t.halted) = true ∧
    nextWith (step (queued [0])) (fun t => !t.halted && t.rxOut == .frame) = true ∧
    nextWith (step base) (fun t => !t.halted && t.rxOut == .noFrame) = true :=
  ⟨⟨rfl, rfl, rfl⟩, ⟨rfl, rfl, rfl⟩, by decide, by decide, by decide⟩

theorem witness_ClassifyStep : AtStart .classify (atStep .classify request) ∧
    (atStep .classify request).frameClass = .echoRequest ∧ (atStep .classify base).frameClass = .notForUs ∧
    (atStep .classify (request.writeByte 25 0x11)).frameClass = .notIcmp :=
  ⟨⟨by decide, rfl, rfl⟩, by decide, by decide, by decide⟩

theorem witness_ProcessStep : AtStart .process (atStep .process { base with rxLen := 36 }) ∧
    36 ≤ (atStep .process { base with rxLen := 36 }).rxLen.toNat ∧ AtStart .process (atStep .process { base with rxLen := 128 }) ∧
    (atStep .process { base with rxLen := 128 }).rxLen.toNat ≤ 128 :=
  ⟨⟨rfl, rfl, rfl⟩, by decide, ⟨rfl, rfl, rfl⟩, by decide⟩

/-- A TRANSMIT step that goes through and one that raises. -/
theorem witness_TransmitStep : AtStart .transmit (atStep .transmit base) ∧ base.rxLen.toNat ≤ 128 ∧
    nextWith (step (atStep .transmit base)) (fun t => !t.halted) = true ∧
    AtStart .transmit (atStep .transmit { base with bitLen := 8 }) ∧
    nextWith (step (atStep .transmit { base with bitLen := 8 })) (fun t => t.halted) = true :=
  ⟨⟨rfl, rfl, rfl⟩, by decide, by decide, ⟨rfl, rfl, rfl⟩, by decide⟩

theorem witness_SettleStep : AtStart .settle (atStep .settle base) := ⟨rfl, rfl, rfl⟩

theorem issuesLoop_atStep (q : LoopState) (s : State) : IssuesLoop (atStep q s) :=
  ⟨by show loopWords q ≠ []; cases q <;> decide, List.suffix_refl _⟩

theorem witness_NoReceive : IssuesLoop (atStep .settle base) ∧ (atStep .settle base).state ≠ .wait ∧
    ∃ t, step (atStep .settle base) = .next t := ⟨issuesLoop_atStep _ _, by decide, _, rfl⟩

theorem dataInv_base : DataInv base :=
  ⟨by decide, rfl, rfl, by decide, rfl, fun _ => by decide, ⟨.idleWait, rfl⟩, rfl, rfl⟩

theorem witness_LoopInv : LoopInv base ∧ base.halted = false ∧ ∃ t, step base = .next t :=
  ⟨⟨dataInv_base, ⟨by decide, List.suffix_refl _⟩, trivial⟩, rfl, _, rfl⟩

theorem witness_DataInv : DataInv base ∧ ∃ t, step base = .next t := ⟨dataInv_base, _, rfl⟩

theorem witness_LoopWrites : IssuesLoop (atStep .settle base) ∧ ∃ t, step (atStep .settle base) = .next t :=
  ⟨issuesLoop_atStep _ _, _, rfl⟩

/-- 133 bytes with a slack of 4: the smallest oversize frame. -/
theorem witness_Oversize : AtStart .wait (queued (1064 :: (List.replicate 34 5 ++ [9]))) ∧
    (queued (1064 :: (List.replicate 34 5 ++ [9]))).rxReady = true ∧
    (List.replicate 34 (5 : Word)).length = (((1064 : Word).toNat + 7) / 8 + 3) / 4 ∧
    ((1064 : Word).toNat + 7) / 8 > 128 + testConfig.oversizeSlack := ⟨⟨rfl, rfl, rfl⟩, rfl, by decide, by decide⟩

/-- A foreign frame that reaches the whole address, and one of no words judged on stale bytes. -/
theorem witness_Foreign : AtStart .wait (queued (384 :: (List.replicate 12 5 ++ []))) ∧
    (List.replicate 12 (5 : Word)).length = (((384 : Word).toNat + 7) / 8 + 3) / 4 ∧
    ((384 : Word).toNat + 7) / 8 ≤ 128 + testConfig.oversizeSlack ∧
    (∃ i < 6, (if 2 + i < 4 * 12 then streamByte (List.replicate 12 5) (2 + i) else base.readByte (2 + i)) ≠
      testConfig.stationMac.toList.getD i 0) ∧
    (∃ i < 6, (if 2 + i < 4 * 0 then streamByte [] (2 + i) else base.readByte (2 + i)) ≠
      testConfig.stationMac.toList.getD i 0) :=
  ⟨⟨rfl, rfl, rfl⟩, by decide, by decide, ⟨0, by decide⟩, ⟨0, by decide⟩⟩

/-- P3: the request with EtherType 0x0806. -/
theorem witness_MatchedButOther :
    let ws := requestWords.set 3 0x0608FFEE
    AtStart .wait (queued (384 :: (ws ++ []))) ∧ ws.length = (((384 : Word).toNat + 7) / 8 + 3) / 4 ∧
    (∀ i < 6, streamByte ws (2 + i) = testConfig.stationMac.toList.getD i 0) ∧ streamByte ws 15 ≠ 0x00 ∧
    2 + 5 < min (4 * ws.length) 128 ∧ ((384 : Word).toNat + 7) / 8 ≤ 128 + testConfig.oversizeSlack :=
  ⟨⟨rfl, rfl, rfl⟩, by decide, by decide, by decide, by decide, by decide⟩

/-- P1, and the shortest answered frame: 36 bytes whose stale byte 36 is 8. -/
theorem witness_EchoRequest : AtStart .wait (queued (384 :: (requestWords ++ []))) ∧
    requestWords.length = (((384 : Word).toNat + 7) / 8 + 3) / 4 ∧ ((384 : Word).toNat + 7) / 8 ≤ 128 ∧
    40 ≤ 4 * requestWords.length ∧ (∀ i < 6, streamByte requestWords (2 + i) = testConfig.stationMac.toList.getD i 0) ∧
    streamByte requestWords 14 = 0x08 ∧ streamByte requestWords 15 = 0x00 ∧ streamByte requestWords 25 = 1 ∧
    streamByte requestWords 36 = 8 ∧
    (requestWords.take 9).length = (((288 : Word).toNat + 7) / 8 + 3) / 4 ∧ (base.writeByte 36 8).readByte 36 = 8 ∧
    streamByte (requestWords.take 9) 25 = 1 :=
  ⟨⟨rfl, rfl, rfl⟩, by decide, by decide, by decide, by decide, by decide, by decide, by decide, by decide, by decide,
    by decide, by decide⟩

theorem witness_ARaisedFault : nextWith (step (queued [])) (fun t => t.halted) = true ∧
    ({ base with fault := { base.fault with rxUnderflow := true } } : State).halted = true := by decide

/-- Each operation that raises, raising, and at the other side of its condition not raising; and one that never raises. -/
theorem witness_EachFault : nextWith (exec .rxpop base) (fun t => t.fault.rxUnderflow) = true ∧
    nextWith (exec .rxpop (queued [7])) (fun t => t.rxq == [] && !t.halted) = true ∧
    nextWith (exec .recv (queued [8])) (fun t => t.fault.rxUnderflow) = true ∧
    nextWith (exec .recv (queued [8, 5])) (fun t => t.rxq == [] && !t.halted) = true ∧
    nextWith (exec .icmpcsum { base with rxLen := 35 }) (fun t => t.fault.icmpShort == some 35) = true ∧
    nextWith (exec .icmpcsum { base with rxLen := 36 }) (fun t => !t.halted) = true ∧
    nextWith (exec .xmit { base with bitLen := 8 }) (fun t => t.fault.txMismatch == some (1, 0)) = true ∧
    nextWith (exec .xmit { base with bitLen := 8, rxLen := 4 }) (fun t => !t.halted) = true ∧
    nextWith (exec .hold base) (fun t => !t.halted) = true := by decide

/-- With every flag set, an operation that answers a next state. -/
theorem witness_Sticky :
    let s : State := { base with fault := { rxUnderflow := true, icmpShort := some 4, txMismatch := some (33, 32) } }
    ∃ t, exec .rxrdy s = .next t ∧ s.fault.rxUnderflow = true ∧ s.fault.icmpShort.isSome = true ∧
      s.fault.txMismatch.isSome = true := ⟨_, rfl, rfl, rfl, rfl⟩

theorem witness_Trace : ∃ t, step (queued [0]) = .next t := ⟨_, rfl⟩

theorem witness_ConfigurationIsReadOnly : ∃ t, step (queued [0]) = .next t := ⟨_, rfl⟩

theorem loopInv_queued (q : List Word) : LoopInv (queued q) :=
  ⟨⟨dataInv_base.memory, dataInv_base.bytes, dataInv_base.words, dataInv_base.length, dataInv_base.aligned,
      dataInv_base.received, dataInv_base.indicator, dataInv_base.settled, dataInv_base.sent⟩,
    ⟨by show loopWords .wait ≠ []; decide, List.suffix_refl _⟩, trivial⟩

theorem duties_queued : DutiesKept (queued [8, 5]) :=
  ⟨.frame 8 [5] [] (by decide) .nil, fun _ => ⟨8, [5], [], rfl, by decide⟩, fun _ h => absurd h List.not_mem_nil⟩

/-- A WAIT step that drains the one queued frame, the environment then presenting nothing. -/
theorem duties_over_drain {t : State} (h : step (queued [8, 5]) = .next t) : DutiesOver (queued [8, 5]) t := by
  obtain rfl := next_inj h
  exact ⟨fun hr => absurd hr (by decide), fun _ hq => absurd hq (by decide)⟩

theorem witness_NoUnderflow : IssuesLoop (queued [8, 5]) ∧ DutiesKept (queued [8, 5]) ∧
    ∃ t, step (queued [8, 5]) = .next t ∧ DutiesOver (queued [8, 5]) t :=
  ⟨(loopInv_queued _).issues, duties_queued, _, rfl, duties_over_drain rfl⟩

theorem witness_NoUnderflowInARun : LoopInv (queued [8, 5]) ∧ DutiesKept (queued [8, 5]) ∧
    EnvironmentKeepsDuties 1 (queued [8, 5]) ∧ (queued [8, 5]).arrivals = [] ∧
    ∃ t, Host.Core.run Sys2Proof.core 1 (queued [8, 5]) = .next t :=
  ⟨loopInv_queued _, duties_queued, fun _ h => ⟨duties_over_drain h, trivial⟩, rfl, _, rfl⟩

/-- An environment that withdraws `rxReady` with nothing popped breaks duty (2) (45_interface.md R177). -/
theorem test_withdrawn_ready_breaks_a_duty {s t : State}
    (hs : s = { atStep .settle (queued [8, 5]) with arrivals := [⟨[], false⟩] }) (h : step s = .next t) :
    ¬ DutiesOver s t := by
  subst hs
  obtain rfl := next_inj h
  exact fun hd => absurd (hd.stays rfl (by decide)) (by decide)

end Sys2Proof.Tests
end

section
/-! PROOFS. The statements about the engine's state (10_state.md): what every step keeps, what a step runs, and what reset leaves. -/

namespace Sys2Proof.Machine

/-! ## What follows an operation leaves the engine's own fields alone -/

@[simp] theorem retire_cfg (s : State) (i : Instr) (t : State) : (retire s i t).cfg = t.cfg := by rw [retire_eq]
@[simp] theorem retire_fault (s : State) (i : Instr) (t : State) : (retire s i t).fault = t.fault := by rw [retire_eq]
@[simp] theorem retire_txq (s : State) (i : Instr) (t : State) : (retire s i t).txq = t.txq := by rw [retire_eq]
@[simp] theorem retire_trace (s : State) (i : Instr) (t : State) : (retire s i t).trace = t.trace := by rw [retire_eq]
@[simp] theorem retire_rxq (s : State) (i : Instr) (t : State) :
    (retire s i t).rxq = t.rxq ++ arrivingWords t.arrivals := by rw [retire_eq]

/-! ## What every step keeps -/

/-- Settles O52: an operation clears no flag, and what follows it leaves the flags alone. -/
theorem faultFlagsAreSticky : Obligations.FaultFlagsAreSticky := by
  refine ⟨rfl, fun i s t h => ?_⟩
  rcases h with h | h
  · exact (exec_kept h).sticky
  · obtain ⟨j, u, -, -, hu, rfl⟩ := step_next h
    rw [retire_fault]
    exact (exec_kept hu).sticky

/-- Settles O53: the operation accounts for the new events and for both queues; the environment's words join after it. -/
theorem traceAndQueuesAgreeOverEveryStep : Obligations.TraceAndQueuesAgreeOverEveryStep := by
  intro s t h
  obtain ⟨i, u, -, -, hu, rfl⟩ := step_next h
  obtain ⟨es, htrace, hsent, hpopped⟩ := exec_traced hu
  refine ⟨es, by rw [retire_trace, htrace], by rw [retire_txq, hsent], ?_⟩
  rw [retire_rxq, (exec_kept hu).arrivals, hpopped, List.append_assoc]

/-- Settles O54: neither the operation nor what follows it writes the configuration. -/
theorem configurationIsReadOnly : Obligations.ConfigurationIsReadOnly := by
  intro s t h
  obtain ⟨i, u, -, -, hu, rfl⟩ := step_next h
  rw [retire_cfg]
  exact (exec_kept hu).cfg

/-! ## What a step runs -/

/-- An opcode with no operand names a legal operation (30_encoding.md R83). -/
theorem wf_of_plainOf {op : Byte} {i : Instr} (h : plainOf op = some i) : i.wf = true := by
  unfold plainOf at h
  split at h <;> cases h <;> rfl

theorem wf_of_decodeSetind {w : Word} {i : Instr} (h : decodeSetind w = .ok i) : i.wf = true := by
  unfold decodeSetind at h
  split at h
  · cases h
  · split at h <;> cases h
    rfl

theorem wf_of_decodeCsum {w : Word} {i : Instr} (h : decodeCsum w = .ok i) : i.wf = true := by
  unfold decodeCsum at h
  split at h
  · rename_i hle
    cases h
    exact decide_eq_true hle
  · cases h

theorem wf_of_decodePlain {w : Word} {i : Instr} (h : decodePlain w = .ok i) : i.wf = true := by
  unfold decodePlain at h
  split at h
  · cases h
  · rename_i j hj
    split at h <;> cases h
    exact wf_of_plainOf hj

/-- Every word that spells an operation spells a legal one (30_encoding.md R83). -/
theorem wf_of_decode {w : Word} {i : Instr} (h : decode w = .ok i) : i.wf = true := by
  unfold decode at h
  split at h
  · cases h
  · split at h
    · exact wf_of_decodeSetind h
    · split at h
      · exact wf_of_decodeCsum h
      · exact wf_of_decodePlain h

/-- A legal operation is never refused: CSUM refuses only a range that legality excludes, and the other operations answer a next state or a fault. -/
theorem exec_ne_refused_of_wf {i : Instr} (h : i.wf = true) (s : State) (r : Refusal) : exec i s ≠ .refused r := by
  cases i with
  | csum off len =>
    have hle : off.toNat + len.toNat ≤ Config.cap := of_decide_eq_true h
    rw [show exec (.csum off len) s = execCsum off len s from rfl, execCsum, if_pos hle]
    nofun
  | icmpcsum =>
    simp only [exec, execIcmpcsum]
    split
    · nofun
    · split <;> nofun
  | xmit =>
    simp only [exec, execXmit]
    split <;> nofun
  | _ => nofun

section StepOfFetch
variable {s : State} {i : Instr} (hh : s.halted = false) (hd : decode s.fetch = .ok i)
include hh hd

/-- Stated of the fetched word, so that it also covers a state with nothing pending. -/
theorem step_of_exec_next {t : State} (he : exec i s = .next t) : step s = .next (retire s i t) := by
  simp [step, hh, hd, he]

theorem step_of_exec_fault {r : Fault} (he : exec i s = .fault r) : step s = .fault r := by
  simp [step, hh, hd, he]

end StepOfFetch

/-- A word placed before what the Control Loop issues is the word fetched next. -/
theorem fetch_withFetchWord (s : State) (w : Word) : (s.withFetchWord 32 w.toNat).fetch = w := by
  have hp : (s.withFetchWord 32 w.toNat).pending = BitVec.ofNat 32 (w.toNat % 2 ^ 32) :: s.issued := rfl
  rw [fetch_of_pending hp, Nat.mod_eq_of_lt w.isLt, BitVec.ofNat_toNat, BitVec.setWidth_eq]

/-- Settles O6: by the step's branch on the fetched word; the decoder answers only legal operations, and those are never refused. -/
theorem stepRunsTheFetchedOperation : Obligations.StepRunsTheFetchedOperation :=
  ⟨fun s _ hh hd => ⟨fun _ => step_of_exec_next hh hd, fun _ => step_of_exec_fault hh hd,
    exec_ne_refused_of_wf (wf_of_decode hd) s⟩, fetch_withFetchWord⟩

/-! ## Reset -/

theorem memory_wf_nil (c : Config) : Memory.wf c [] := ⟨.nil, nofun⟩

/-- Right after reset the receive length and the word count are both zero, and the indicator shows STATUS_IDLE_WAIT. -/
theorem dataInv_reset : DataInv State.reset where
  memory := memory_wf_nil _
  bytes := rfl
  words := rfl
  length := Nat.zero_le _
  aligned := rfl
  received := fun _ => rfl
  indicator := ⟨.idleWait, rfl⟩
  settled := rfl
  sent := rfl

/-- Settles O56: at reset the Control Loop is about to issue the whole of WAIT's step. -/
theorem resetSatisfiesTheInvariants : Obligations.ResetSatisfiesTheInvariants where
  data := dataInv_reset
  issues := ⟨List.cons_ne_nil _ _, List.suffix_refl _⟩
  decisions := trivial

/-- A byte of INIT_BUF, read as a byte of the buffer. -/
theorem initByte_of_lt (c : Config) {a : Nat} (h : a < 128) : initByte c a = c.initBuf[a] := by
  rw [initByte, List.getD_eq_getElem _ _ (by simpa using h), Vector.getElem_toList]

/-- Where no byte is listed, the buffer reads as INIT_BUF (10_state.md R21). -/
theorem readByte_of_mem_nil {s : State} (hm : s.mem = []) (a : Nat) : s.readByte a = initByte s.cfg a := by
  rw [State.readByte, hm]; rfl

/-- The configuration of a run keeps the bounds of 00_scope.md R8, whatever was drawn. -/
theorem config_machine_valid : Config.machine.Valid := by
  unfold Config.machine
  split
  · assumption
  · exact ⟨Nat.le_refl 1, by decide, by decide, by decide⟩

/-- Settles O60: an empty buffer list reads as INIT_BUF, and the run's configuration is valid by its construction. -/
theorem resetLeavesTheListedValues : Obligations.ResetLeavesTheListedValues := by
  refine ⟨fun a h => ?_, rfl, rfl, rfl, rfl, rfl, rfl, rfl, config_machine_valid⟩
  rw [readByte_of_mem_nil (s := State.reset) rfl, initByte_of_lt _ h]

end Sys2Proof.Machine
end

section
/-! PROOFS. The statements about the memory (20_memory.md): the data invariant every step keeps (R51), the byte order of queue words (R57, R58), and the stop at the buffer's bound (log 10). -/

namespace Sys2Proof.Machine

/-! ## The data invariant -/

/-- What follows an operation writes only the Control Loop's place and what the environment owns. -/
theorem sameEngine_retire (s : State) (i : Instr) (t : State) : SameEngine t (retire s i t) := by
  unfold SameEngine
  rw [retire_eq]

/-- The data invariant speaks of nothing the Control Loop or the environment writes between two operations. -/
theorem DataInv.of_sameEngine {s t : State} (h : DataInv s) (hst : SameEngine s t) : DataInv t := by
  unfold SameEngine at hst
  rw [hst]
  exact ⟨h.memory, h.bytes, h.words, h.length, h.aligned, h.received, h.indicator, h.settled, h.sent⟩

/-- Settles O55: the operation keeps the invariant, and what follows it leaves the engine's data alone. -/
theorem everyStepKeepsDataInv : Obligations.EveryStepKeepsDataInv := by
  intro s t h hstep
  obtain ⟨i, u, hh, -, hu, rfl⟩ := step_next hstep
  exact (dataInv_exec h hh hu).of_sameEngine (sameEngine_retire s i u)

/-! ## Byte order -/

@[simp] theorem writeBytes_rxLen (s : State) (a : Nat) (bs : List Byte) : (s.writeBytes a bs).rxLen = s.rxLen := by
  rw [writeBytes_eq]

theorem wordBytes_getD_eq_wordByte (x : Word) {j : Nat} (hj : j < 4) : (wordBytes x).getD j 0 = wordByte x j := by
  match j, hj with
  | 0, _ | 1, _ | 2, _ | 3, _ => rfl

/-- A word's byte, stored inside the frame, is the byte a transmit word takes from there. -/
theorem frameByte_writeBytes_wordBytes (s : State) (a : Nat) (x : Word) {j : Nat} (hj : j < 4)
    (ha : a + j < s.rxLen.toNat) : (s.writeBytes a (wordBytes x)).frameByte (a + j) = wordByte x j := by
  rw [State.frameByte, writeBytes_rxLen, if_pos ha, readByte_writeBytes, wordBytes_length, if_pos (by omega),
    Nat.add_sub_cancel_left, wordBytes_getD_eq_wordByte x hj]

/-- Settles O21: each of the four bytes comes back as it was stored, and together they are the word (R58). -/
theorem wordReceivedIsSentUnchanged : Obligations.WordReceivedIsSentUnchanged := by
  intro s k x hk
  have hbyte : ∀ j < 4, (s.writeBytes (4 * k) (wordBytes x)).frameByte (4 * k + j) = wordByte x j :=
    fun j hj => frameByte_writeBytes_wordBytes s (4 * k) x hj (by omega)
  have hbyte0 := hbyte 0 (by omega)
  rw [Nat.add_zero] at hbyte0
  rw [State.frameWord, hbyte0, hbyte 1 (by omega), hbyte 2 (by omega), hbyte 3 (by omega), wordOfBytes_wordByte]

/-! ## The bound of the buffer -/

/-- Settles O33: such a receive length is not short either, so ICMPCSUM raises no ICMP_SHORT before it meets the bound. -/
theorem readsBeyondTheBufferStop : Obligations.ReadsBeyondTheBufferStop := by
  intro s h
  have hbound : ¬ s.rxLen.toNat ≤ Config.cap := Nat.not_le.2 h
  constructor
  · rw [show exec .icmpcsum s = execIcmpcsum s from rfl, execIcmpcsum, if_neg (by omega), if_neg hbound]
  · rw [show exec .xmit s = execXmit s from rfl, execXmit, if_neg hbound]

end Sys2Proof.Machine
end

section
/-! PROOFS. The statements about the encoding (30_encoding.md): the decoder and the encoder are inverse to each other (R80 to R83), exactly the listed words are legal (R83), the assembler reads what is printed (R85, R86), and the listed codes (R88). -/

namespace Sys2Proof.Machine

/-! ## The encoder is inverse to the decoder -/

theorem fields_encode (i : Instr) : Laws.OpcodeField.Statement i := Laws.OpcodeField.fields_append _ _ _ _

/-- An operation word is the four bytes of R80, lowest first. -/
theorem encode_eq_wordOfBytes (i : Instr) : encode i = wordOfBytes i.opcode i.operandA i.operandB 0 := rfl

/-- A word is fixed by its four fields. -/
theorem encode_eq_of_fields {w : Word} {i : Instr} (hop : fieldOp w = i.opcode) (ha : fieldA w = i.operandA)
    (hb : fieldB w = i.operandB) (hz : fieldZ w = 0) : encode i = w := by
  rw [encode_eq_wordOfBytes, ← hop, ← ha, ← hb, ← hz]
  exact wordOfBytes_wordByte w

/-- A legal operation's word decodes to it. Only CSUM has operands that range; the other words are finitely many. -/
theorem decode_encode {i : Instr} (h : i.wf = true) : decode (encode i) = .ok i := by
  cases i with
  | csum off len =>
    obtain ⟨hop, ha, hb, hz⟩ := fields_encode (.csum off len)
    have hle : off.toNat + len.toNat ≤ 128 := of_decide_eq_true h
    simp only [Instr.opcode, Instr.operandA, Instr.operandB] at hop ha hb
    simp [decode, decodeCsum, hop, ha, hb, hz, hle]
  | setind sel => cases sel <;> rfl
  | _ => rfl

/-- Settles O1: CSUM's fields come back out of its word and pass the range check; every other legal word is a constant. -/
theorem decodeOfEncodeIsTheInstruction : Obligations.DecodeOfEncodeIsTheInstruction := fun _ => decode_encode

theorem code_of_selectorOf {a : Byte} {sel : Selector} (h : selectorOf a = some sel) : a = sel.code := by
  unfold selectorOf at h
  split at h <;> cases h <;> rfl

/-- An opcode with no operand is that of the operation it names, whose operand fields are zero (30_encoding.md R81, R82). -/
theorem fields_of_plainOf {op : Byte} {i : Instr} (h : plainOf op = some i) :
    op = i.opcode ∧ i.operandA = 0 ∧ i.operandB = 0 := by
  unfold plainOf at h
  split at h <;> cases h <;> exact ⟨rfl, rfl, rfl⟩

theorem fields_of_decodeSetind {w : Word} {i : Instr} (hop : fieldOp w = 0x05) (h : decodeSetind w = .ok i) :
    fieldOp w = i.opcode ∧ fieldA w = i.operandA ∧ fieldB w = i.operandB := by
  unfold decodeSetind at h
  split at h
  · cases h
  next hb =>
    split at h
    next sel hsel =>
      cases h
      exact ⟨hop, code_of_selectorOf hsel, not_not.1 hb⟩
    · cases h

theorem fields_of_decodeCsum {w : Word} {i : Instr} (hop : fieldOp w = 0x10) (h : decodeCsum w = .ok i) :
    fieldOp w = i.opcode ∧ fieldA w = i.operandA ∧ fieldB w = i.operandB := by
  unfold decodeCsum at h
  split at h <;> cases h
  exact ⟨hop, rfl, rfl⟩

theorem fields_of_decodePlain {w : Word} {i : Instr} (h : decodePlain w = .ok i) :
    fieldOp w = i.opcode ∧ fieldA w = i.operandA ∧ fieldB w = i.operandB := by
  unfold decodePlain at h
  split at h
  · cases h
  next j hj =>
    split at h <;> cases h
    next hzero =>
      obtain ⟨hop, ha, hb⟩ := fields_of_plainOf hj
      exact ⟨hop, hzero.1.trans ha.symm, hzero.2.trans hb.symm⟩

/-- The fields of a word that decodes are those of the operation it spells (30_encoding.md R80, R81). -/
theorem encode_of_decode {w : Word} {i : Instr} (h : decode w = .ok i) : encode i = w := by
  have hfields : (fieldOp w = i.opcode ∧ fieldA w = i.operandA ∧ fieldB w = i.operandB) ∧ fieldZ w = 0 := by
    unfold decode at h
    split at h
    · cases h
    next hz =>
      refine ⟨?_, not_not.1 hz⟩
      split at h
      next hop => exact fields_of_decodeSetind hop h
      · split at h
        next hop => exact fields_of_decodeCsum hop h
        · exact fields_of_decodePlain h
  obtain ⟨⟨hop, ha, hb⟩, hz⟩ := hfields
  exact encode_eq_of_fields hop ha hb hz

/-- Settles O2: the decoder's answer has the word's own four fields, and four fields make one word. -/
theorem decodedWordIsTheEncoding : Obligations.DecodedWordIsTheEncoding :=
  fun _ _ h => ⟨encode_of_decode h, wf_of_decode h⟩

/-! ## Which words are legal (30_encoding.md R83) -/

/-- R83's conditions on the four fields of a word, as numbers. -/
def LegalFields (op a b z : Nat) : Prop :=
  z = 0 ∧
    ((op = 0x05 ∧ b = 0 ∧ a ≤ 2) ∨ (op = 0x10 ∧ a + b ≤ 128) ∨
      (op ∈ [0x01, 0x02, 0x03, 0x04, 0x06, 0x20, 0x30, 0x40, 0x41, 0x42, 0x43, 0x44, 0x50] ∧ a = 0 ∧ b = 0))

/-- The operations with no operand, in the order of R82. -/
def plainInstrs : List Instr :=
  [.rxrdy, .rxpop, .txann, .txpush, .hold, .recv, .classify, .swapmac, .swapip, .settype, .ipcsum, .icmpcsum, .xmit]

theorem plainInstrs_opcodes : plainInstrs.map (fun i => i.opcode.toNat) =
    [0x01, 0x02, 0x03, 0x04, 0x06, 0x20, 0x30, 0x40, 0x41, 0x42, 0x43, 0x44, 0x50] := rfl

theorem plainInstrs_wf : ∀ i ∈ plainInstrs, i.wf = true ∧ i.operandA = 0 ∧ i.operandB = 0 := by decide

theorem exists_selector_code {a : Byte} (h : a.toNat ≤ 2) : ∃ sel : Selector, sel.code = a := by
  obtain h0 | h1 | h2 : a.toNat = 0 ∨ a.toNat = 1 ∨ a.toNat = 2 := by omega
  · exact ⟨.idleWait, BitVec.eq_of_toNat_eq h0.symm⟩
  · exact ⟨.frameRx, BitVec.eq_of_toNat_eq h1.symm⟩
  · exact ⟨.idleDone, BitVec.eq_of_toNat_eq h2.symm⟩

/-- A legal operation's fields meet R83's conditions. -/
theorem legalFields_of_wf {i : Instr} (h : i.wf = true) :
    LegalFields i.opcode.toNat i.operandA.toNat i.operandB.toNat 0 := by
  refine ⟨rfl, ?_⟩
  cases i with
  | setind sel => cases sel <;> exact .inl (by decide)
  | csum off len => exact .inr (.inl ⟨rfl, of_decide_eq_true h⟩)
  | _ => exact .inr (.inr (by decide))

/-- Fields that meet R83's conditions are those of a legal operation. -/
theorem exists_instr_of_legalFields {op a b z : Byte} (h : LegalFields op.toNat a.toNat b.toNat z.toNat) :
    z = 0 ∧ ∃ i : Instr, i.wf = true ∧ op = i.opcode ∧ a = i.operandA ∧ b = i.operandB := by
  obtain ⟨hz, hsetind | hcsum | hplain⟩ := h <;> refine ⟨BitVec.eq_of_toNat_eq hz, ?_⟩
  · obtain ⟨hop, hb, ha⟩ := hsetind
    obtain ⟨sel, hsel⟩ := exists_selector_code ha
    exact ⟨.setind sel, rfl, BitVec.eq_of_toNat_eq hop, hsel.symm, BitVec.eq_of_toNat_eq hb⟩
  · obtain ⟨hop, hle⟩ := hcsum
    exact ⟨.csum a b, decide_eq_true hle, BitVec.eq_of_toNat_eq hop, rfl, rfl⟩
  · obtain ⟨hop, ha, hb⟩ := hplain
    rw [← plainInstrs_opcodes, List.mem_map] at hop
    obtain ⟨i, hi, hop⟩ := hop
    obtain ⟨hwf, hia, hib⟩ := plainInstrs_wf i hi
    exact ⟨i, hwf, BitVec.eq_of_toNat_eq hop.symm, hia ▸ BitVec.eq_of_toNat_eq ha, hib ▸ BitVec.eq_of_toNat_eq hb⟩

theorem fieldOp_toNat (w : Word) : (fieldOp w).toNat = w.toNat % 256 := by
  simp [fieldOp, BitVec.extractLsb'_toNat]

theorem fieldA_toNat (w : Word) : (fieldA w).toNat = w.toNat / 2 ^ 8 % 256 := by
  simp [fieldA, BitVec.extractLsb'_toNat, Nat.shiftRight_eq_div_pow]

theorem fieldB_toNat (w : Word) : (fieldB w).toNat = w.toNat / 2 ^ 16 % 256 := by
  simp [fieldB, BitVec.extractLsb'_toNat, Nat.shiftRight_eq_div_pow]

theorem fieldZ_toNat (w : Word) : (fieldZ w).toNat = w.toNat / 2 ^ 24 := by
  have hw := w.isLt
  simp only [fieldZ, BitVec.extractLsb'_toNat, Nat.shiftRight_eq_div_pow]
  omega

/-- The words that decode are those whose fields R83 allows. -/
theorem exists_decode_iff (w : Word) : (∃ i, decode w = .ok i) ↔
    LegalFields (w.toNat % 256) (w.toNat / 2 ^ 8 % 256) (w.toNat / 2 ^ 16 % 256) (w.toNat / 2 ^ 24) := by
  rw [← fieldOp_toNat, ← fieldA_toNat, ← fieldB_toNat, ← fieldZ_toNat]
  constructor
  · rintro ⟨i, hi⟩
    obtain ⟨hop, ha, hb, hz⟩ := fields_encode i
    rw [← encode_of_decode hi, hop, ha, hb, hz]
    exact legalFields_of_wf (wf_of_decode hi)
  · intro h
    obtain ⟨hz, i, hwf, hop, ha, hb⟩ := exists_instr_of_legalFields h
    exact ⟨i, encode_eq_of_fields hop ha hb hz ▸ decode_encode hwf⟩

/-- Every operation the Control Loop issues is legal. -/
theorem loopOps_wf (q : LoopState) : ∀ i ∈ loopOps q, i.wf = true := by
  cases q <;> decide

/-- The step of a state whose next word spells no operation. -/
theorem step_of_not_decode {s : State} (hh : s.halted = false) (hd : ∀ i, decode s.fetch ≠ .ok i) :
    ∃ e, step s = .refused (.illegalWord e) := by
  cases he : decode s.fetch with
  | ok i => exact absurd he (hd i)
  | bad e => exact ⟨e, by simp [step, hh, he]⟩

/-- Settles O3: the Control Loop's words are those of legal operations, and the decoder answers exactly where the fields are legal. -/
theorem legalWordsAreExactlyThoseListed : Obligations.LegalWordsAreExactlyThoseListed := by
  constructor
  · intro q x hx
    obtain ⟨i, hi, rfl⟩ := List.mem_map.1 hx
    exact ⟨i, decode_encode (loopOps_wf q i hi)⟩
  · intro w
    refine ⟨(exists_decode_iff w).2, fun hillegal => ?_⟩
    have hd : ∀ i, decode w ≠ .ok i := fun i hi => hillegal ((exists_decode_iff w).1 ⟨i, hi⟩)
    exact ⟨hd, fun s hh hf => step_of_not_decode hh (hf ▸ hd)⟩

/-! ## The assembler (30_encoding.md R85, log 21) -/

/-- The characters that end a word. -/
def separators : List Char := [';', ' ', '\t', '\r', ',']

/-- Characters that end no word join the word being read. -/
theorem tokenize_append {cs : List Char} (h : ∀ c ∈ cs, c ∉ separators) (acc rest : List Char) :
    tokenize acc (cs ++ rest) = tokenize (acc ++ cs) rest := by
  induction cs generalizing acc with
  | nil => simp
  | cons c cs ih =>
    obtain ⟨hc, hcs⟩ := List.forall_mem_cons.1 h
    simp only [separators, List.mem_cons, List.not_mem_nil, or_false, not_or] at hc
    obtain ⟨hsemi, hspace, htab, hcr, hcomma⟩ := hc
    rw [List.cons_append, tokenize]
    simp [hsemi, hspace, htab, hcr, hcomma, ih hcs]

@[simp] theorem tokenize_space (rest : List Char) : tokenize [] (' ' :: rest) = tokenize [] rest := rfl

theorem flushWord_of_ne_nil {cs : List Char} (h : cs ≠ []) : flushWord cs = [.word cs] := if_neg h

section Word
variable {cs : List Char} (h : ∀ c ∈ cs, c ∉ separators) (hne : cs ≠ [])
include h hne

theorem tokenize_word : tokenize [] cs = [.word cs] := by
  have happ := tokenize_append h [] []
  rw [List.append_nil, List.nil_append] at happ
  rw [happ, tokenize, flushWord_of_ne_nil hne]

theorem tokenize_word_space (rest : List Char) : tokenize [] (cs ++ ' ' :: rest) = .word cs :: tokenize [] rest := by
  rw [tokenize_append h, List.nil_append, tokenize, flushWord_of_ne_nil hne]
  rfl

theorem tokenize_word_comma (rest : List Char) :
    tokenize [] (cs ++ ',' :: rest) = .word cs :: .comma :: tokenize [] rest := by
  rw [tokenize_append h, List.nil_append, tokenize, flushWord_of_ne_nil hne]
  rfl

end Word

/-- The line printed for CSUM, in the pieces that its tokens take. -/
theorem toList_printInstr_csum (off len : Byte) : (printInstr (.csum off len)).toList =
    "CSUM".toList ++ ' ' :: (Nat.toDigits 10 off.toNat ++ ',' :: ' ' :: Nat.toDigits 10 len.toNat) := by
  simp [printInstr]

theorem isDigit_notMem_separators {c : Char} (h : c.isDigit = true) : c ∉ separators := by
  intro hc
  have hnone : ∀ d ∈ separators, d.isDigit = false := by simp [separators]
  simp [hnone c hc] at h

theorem toDigits_isDigit (n : Nat) : ∀ c ∈ Nat.toDigits 10 n, c.isDigit = true :=
  fun _ hc => Nat.isDigit_of_mem_toDigits (by decide) (by decide) hc

theorem digitValue_of_isDigit {c : Char} (h : c.isDigit = true) :
    digitValue c = some (c.toNat - '0'.toNat) ∧ c.toNat - '0'.toNat < 10 := by
  obtain ⟨hlo, hhi⟩ := Char.isDigit_iff_toNat.1 h
  refine ⟨if_pos ⟨hlo, hhi⟩, ?_⟩
  have h9 : '9'.toNat = 57 := rfl
  have h0 : '0'.toNat = 48 := rfl
  omega

/-- On decimal digits the reader is the library's. -/
theorem readDigits_of_isDigit {cs : List Char} (h : ∀ c ∈ cs, c.isDigit = true) (n : Nat) :
    readDigits 10 n cs = some (Nat.ofDigitChars 10 cs n) := by
  induction cs generalizing n with
  | nil => rfl
  | cons c cs ih =>
    obtain ⟨hc, hcs⟩ := List.forall_mem_cons.1 h
    obtain ⟨hval, hlt⟩ := digitValue_of_isDigit hc
    simp only [readDigits, hval, if_pos hlt]
    rw [ih hcs, Nat.ofDigitChars_cons, Nat.mul_comm]

/-- A list of digits is no hexadecimal number: its second character is not `x`. -/
theorem readNumber_of_isDigit {cs : List Char} (h : ∀ c ∈ cs, c.isDigit = true) (hne : cs ≠ []) :
    readNumber cs = readDigits 10 0 cs := by
  have hx : 'x' ∉ cs := fun hx => absurd (h _ hx) (by decide)
  unfold readNumber
  split
  · exact absurd rfl hne
  · exact absurd (by simp) hx
  · exact absurd (by simp) hx
  · rfl

theorem readNumber_toDigits (n : Nat) : readNumber (Nat.toDigits 10 n) = some n := by
  rw [readNumber_of_isDigit (toDigits_isDigit n) Nat.toDigits_ne_nil, readDigits_of_isDigit (toDigits_isDigit n),
    Nat.ofDigitChars_ten_toDigits]

/-- The line printed for CSUM is the mnemonic and two numbers with a comma between them. -/
theorem tokenize_printInstr_csum (off len : Byte) : tokenize [] (printInstr (.csum off len)).toList =
    [.word "CSUM".toList, .word (Nat.toDigits 10 off.toNat), .comma, .word (Nat.toDigits 10 len.toNat)] := by
  have hdigits (n : Nat) : ∀ c ∈ Nat.toDigits 10 n, c ∉ separators :=
    fun c hc => isDigit_notMem_separators (toDigits_isDigit n c hc)
  rw [toList_printInstr_csum, tokenize_word_space (by simp [separators]) (by decide),
    tokenize_word_comma (hdigits _) Nat.toDigits_ne_nil, tokenize_space, tokenize_word (hdigits _) Nat.toDigits_ne_nil]

theorem csumOf_toNat {off len : Byte} (h : off.toNat + len.toNat ≤ 128) :
    csumOf off.toNat len.toNat = some [.csum off len] := by
  simp [csumOf, h]

/-- Reading a legal operation's line gives the operation. Only CSUM has operands that range; the other lines are finitely many. -/
theorem assembleLine_printInstr {i : Instr} (h : i.wf = true) : assembleLine (printInstr i) = some [i] := by
  cases i with
  | csum off len =>
    rw [assembleLine, tokenize_printInstr_csum]
    simp only [readTokens, readNumber_toDigits, if_true]
    exact csumOf_toNat (of_decide_eq_true h)
  | setind sel => cases sel <;> decide
  | _ => decide

theorem pseudo_expand_wf (p : Pseudo) : ∀ i ∈ p.expand, i.wf = true := by
  cases p <;> decide

/-- Settles O5: the printed operands are read back digit by digit, and a pseudo-operation expands to legal operations. -/
theorem assemblerReadsWhatIsPrinted : Obligations.AssemblerReadsWhatIsPrinted := by
  refine ⟨fun _ => assembleLine_printInstr, rfl, rfl, fun p => ?_⟩
  rw [printPseudo, List.map_map]
  exact List.map_congr_left fun i hi => assembleLine_printInstr (pseudo_expand_wf p i hi)

/-! ## Listed words and codes -/

/-- Settles O4: the decoder is run on each word. -/
theorem vectorWordsDecodeAsListed : Obligations.VectorWordsDecodeAsListed := by
  unfold Obligations.VectorWordsDecodeAsListed
  decide

theorem rxOutcome_code_ne_three (o : RxOutcome) : o.code ≠ 3 := by
  cases o <;> decide

theorem frameClass_code_lt (c : FrameClass) : c.code.toNat < 5 := by
  cases c <;> decide

theorem loopState_code_lt (q : LoopState) : q.code.toNat < 5 := by
  cases q <;> decide

/-- Settles O8: each code is the listed one by definition, and no value has a code beyond those. -/
theorem outcomesAndClassesHaveTheListedCodes : Obligations.OutcomesAndClassesHaveTheListedCodes :=
  ⟨rfl, rfl, rfl, rxOutcome_code_ne_three, rfl, rfl, rfl, rfl, rfl, frameClass_code_lt,
    rfl, rfl, rfl, rfl, rfl, loopState_code_lt, rfl, fun _ => rfl, fun _ _ => rfl⟩

/-- Settles O16: the range check is CSUM's only condition, and it reads the operands alone. -/
theorem csumBeyondTheBufferIsRefused : Obligations.CsumBeyondTheBufferIsRefused := by
  intro off len s h
  rw [show exec (.csum off len) s = execCsum off len s from rfl, execCsum, if_neg (Nat.not_le.2 h)]

end Sys2Proof.Machine
end

section
/-! PROOFS. The statements about the Checksum Engine (40_checksum.md): the sum in one formula (R101), folding (R102), the facts about stored checksums (R103, R104), and the CSUM operation (R100). -/

namespace Sys2Proof.Machine

/-! ## The sum and its folding -/

/-- Settles O17: the word sum weighs the bytes by their place, and folding has a closed form. -/
theorem checksumIsTheComplementedFoldedSum : Obligations.ChecksumIsTheComplementedFoldedSum := by
  intro d
  rw [checksum_toNat, foldSum_eq, wordSum_eq_weighted]

/-- A fold takes 0x10000 off for each 1 it adds, so it takes off a multiple of 0xFFFF. -/
theorem foldOnce_add_mul (n : Nat) : foldOnce n + 65535 * (n / 65536) = n := by
  rw [foldOnce_eq]
  omega

/-- A folded sum depends only on the residue modulo 0xFFFF and on whether the sum is zero. -/
theorem foldSum_congr {m n : Nat} (hmod : m % 65535 = n % 65535) (hzero : m = 0 ↔ n = 0) : foldSum m = foldSum n := by
  rw [foldSum_eq, foldSum_eq]
  by_cases hn : n = 0
  · rw [if_pos hn, if_pos (hzero.2 hn)]
  · have hm : m ≠ 0 := mt hzero.1 hn
    rw [if_neg hn, if_neg hm]
    omega

/-- Folding a part of a sum first changes nothing (40_checksum.md R102). -/
theorem foldSum_foldSum_add (m n : Nat) : foldSum (foldSum m + n) = foldSum (m + n) := by
  apply foldSum_congr
  · rw [Nat.add_mod, foldSum_mod, ← Nat.add_mod]
  · rw [Nat.add_eq_zero_iff, foldSum_eq_zero, Nat.add_eq_zero_iff]

/-- Settles O18: a fold takes off a positive multiple of 0xFFFF and leaves something; what folding ends in is fixed by what no fold changes. -/
theorem foldingAtAnyPointGivesTheSameSum : Obligations.FoldingAtAnyPointGivesTheSameSum := by
  refine ⟨fun n hn => ?_, fun n => ⟨foldSum_le n, foldSum_mod n, foldSum_eq_zero n⟩, foldSum_foldSum_add⟩
  have hfold := foldOnce_add_mul n
  omega

/-! ## What a checksum says of its range -/

/-- The complement is all ones exactly where the folded sum is 0, and only the sum 0 folds to 0. -/
theorem checksum_eq_allOnes_iff (d : List Byte) : checksum d = 0xFFFF ↔ wordSum d = 0 := by
  have hle := foldSum_le (wordSum d)
  rw [← foldSum_eq_zero, ← BitVec.toNat_inj, checksum_toNat, show (0xFFFF : Half).toNat = 65535 from rfl]
  omega

/-- Settles O19: the sum of a range is 0 exactly where all its bytes are. -/
theorem checksumIsAllOnesExactlyForZeroBytes : Obligations.ChecksumIsAllOnesExactlyForZeroBytes :=
  fun d => (checksum_eq_allOnes_iff d).trans (wordSum_eq_zero d)

/-- A field at an even offset adds its 16-bit value to the sum of its range (40_checksum.md R101, R104). -/
theorem wordSum_field {before : List Byte} (h : before.length % 2 = 0) (c : Half) (after : List Byte) :
    wordSum (before ++ halfBytes c ++ after) = wordSum before + c.toNat + wordSum after := by
  rw [wordSum_append _ _ (by rw [List.length_append, halfBytes_length]; omega), wordSum_append _ _ h, wordSum_halfBytes]

/-- A sum and the complement of its folding make a positive multiple of 0xFFFF. -/
theorem checksum_completes {d e : List Byte} (h : wordSum e = wordSum d + (checksum d).toNat) : checksum e = 0 := by
  have hle := foldSum_le (wordSum d)
  have hmod := foldSum_mod (wordSum d)
  have hzero := foldSum_eq_zero (wordSum d)
  rw [checksum_toNat] at h
  exact checksum_eq_zero (by omega) (by omega)

/-- Zeroing a field's two bytes, whatever they hold. -/
theorem set_field_zero (before after : List Byte) (hi lo : Byte) :
    ((before ++ [hi, lo] ++ after).set before.length 0).set (before.length + 1) 0 = before ++ [0, 0] ++ after := by
  simp

/-- Settles O20: the stored field adds the checksum to the sum of the range with the field zeroed. What follows the field may have any length. -/
theorem storedChecksumVerifies : Obligations.StoredChecksumVerifies := by
  intro before after hbefore _ c completed
  constructor
  · have hzeroed : wordSum (before ++ [0, 0] ++ after) = wordSum before + 0 + wordSum after := wordSum_field hbefore 0 after
    have hcompleted : wordSum completed = wordSum before + c.toNat + wordSum after := wordSum_field hbefore c after
    apply checksum_completes (d := before ++ [0, 0] ++ after)
    rw [hcompleted, hzeroed, Nat.add_zero]
    exact Nat.add_right_comm _ _ _
  · exact congrArg checksum (set_field_zero before after _ _)

/-! ## CSUM -/

/-- Settles O15: a legal range passes CSUM's only check, and the word is CSUM's four fields. -/
theorem csumWritesOnlyTheSum : Obligations.CsumWritesOnlyTheSum := by
  intro off len h
  refine ⟨rfl, fun s => ?_⟩
  rw [show exec (.csum off len) s = execCsum off len s from rfl, execCsum, if_pos h, State.sumRange, readBytes_eq_map]

end Sys2Proof.Machine
end

section
/-! PROOFS. The statements about the FIFO Receiver (41_receiver.md): RECV of a whole queued frame (R112 to R117), of a queue that runs out (R110, R172, R213), and with nothing presented (R111). -/

namespace Sys2Proof.Machine

theorem exec_recv (s : State) : exec .recv s = .next (receive s) := rfl

/-- The oversize guard in terms of the length word (41_receiver.md R117). -/
theorem frameOutcome_byteCountOf (c : Config) (len : Word) :
    frameOutcome c (byteCountOf len) = if (len.toNat + 7) / 8 > 128 + c.oversizeSlack then .oversize else .frame := by
  rw [frameOutcome, byteCountOf_toNat, Config.cap]

/-- Settles O23: the drain pops every word the length word claims, and what follows it writes the receive length and the guard's outcome; the counts are exact in their bits (R112). -/
theorem recvMovesTheFrameIntoTheBuffer : Obligations.RecvMovesTheFrameIntoTheBuffer := by
  intro s len ws rest hready hqueue hlength
  obtain ⟨m, hreceive, -, hbytes⟩ := receive_frame len ws rest hready hqueue (by rw [payloadWords_toNat, hlength])
  rw [frameOutcome_byteCountOf, byteCountOf_eq, payloadWords_eq] at hreceive
  exact ⟨_, (exec_recv s).trans (congrArg _ hreceive), rfl, hbytes⟩

/-- Settles O24: the pop that finds the queue empty raises, be it that of the length word or one of the drain. -/
theorem recvOfAShortQueueUnderflows : Obligations.RecvOfAShortQueueUnderflows := by
  constructor
  · intro s hready hqueue
    rw [exec_recv, receive_empty hready hqueue]
    rfl
  · intro s len ws hready hqueue hshort
    obtain ⟨m, hreceive, -, hbytes⟩ := receive_short len ws hready hqueue (by rwa [payloadWords_toNat])
    rw [byteCountOf_eq, payloadWords_eq] at hreceive
    exact ⟨_, (exec_recv s).trans (congrArg _ hreceive), rfl, hbytes⟩

/-- Settles O22: a poll that saw nothing is the whole of RECV but for the outcome. -/
theorem recvWithNothingReadyPopsNothing : Obligations.RecvWithNothingReadyPopsNothing := by
  intro s h
  rw [exec_recv, receive_none h]

end Sys2Proof.Machine
end

section
/-! PROOFS. The statements about the Frame Classifier (42_classifier.md): the decision chain of CLASS (R130 to R135), and that CLASS reads nothing beyond what the chain names (R136). -/

namespace Sys2Proof.Machine

theorem exec_classify (s : State) : exec .classify s = .next { s with cls := s.frameClass } := rfl

/-- Check 1 of CLASS: the destination address is the station's, byte by byte (42_classifier.md R131). -/
abbrev State.AddressedToStation (s : State) : Prop := ∀ i < 6, s.readByte (2 + i) = s.cfg.stationMac.toList.getD i 0

/-- Check 2 of CLASS: the EtherType is that of IPv4 (42_classifier.md R132). -/
abbrev State.CarriesIpv4 (s : State) : Prop := s.readByte 14 = 0x08 ∧ s.readByte 15 = 0x00

/-- The chain of 42_classifier.md R130 with the address (R131) and the EtherType (R132) compared byte by byte. -/
theorem frameClass_eq (s : State) : s.frameClass =
    if ¬ s.AddressedToStation then .notForUs
    else if ¬ s.CarriesIpv4 then .notIpv4
    else if s.readByte 25 ≠ 1 then .notIcmp
    else if s.readByte 36 ≠ 8 then .notEchoRequest
    else .echoRequest := by
  simp only [State.frameClass, classOf, State.readHalf, ne_eq, readBytes_eq_stationMac, be16_eq_0800]

/-- Settles O25: each outcome is one exit of the decision chain, reached where every check before it passes. -/
theorem classDecidesByTheFirstFailingCheck : Obligations.ClassDecidesByTheFirstFailingCheck := by
  refine ⟨rfl, fun s => ⟨s.frameClass, exec_classify s, ?_⟩⟩
  rw [frameClass_eq]
  refine ⟨fun hmac => if_pos hmac, fun hmac htype => ?_, fun hmac htype hproto => ?_,
    fun hmac htype hproto hicmp => ?_, fun hmac htype hproto hicmp => ?_⟩
  · rw [if_neg (not_not_intro hmac), if_pos htype]
  · rw [if_neg (not_not_intro hmac), if_neg (not_not_intro htype), if_pos hproto]
  · rw [if_neg (not_not_intro hmac), if_neg (not_not_intro htype), if_neg (not_not_intro hproto), if_pos hicmp]
  · rw [if_neg (not_not_intro hmac), if_neg (not_not_intro htype), if_neg (not_not_intro hproto),
      if_neg (not_not_intro hicmp)]

/-- The decision takes nothing of the configuration but the station address. -/
theorem classOf_congr {c d : Config} (h : c.stationMac = d.stationMac) (dst : List Byte) (etherType : Half)
    (proto icmpType : Byte) : classOf c dst etherType proto icmpType = classOf d dst etherType proto icmpType := by
  rw [classOf, classOf, h]

/-- The bytes CLASS reads are six of the address, two of the EtherType, the protocol and the ICMP type (42_classifier.md R130). -/
theorem frameClass_congr {s t : State} (hmac : s.cfg.stationMac = t.cfg.stationMac)
    (hbytes : ∀ a ∈ [2, 3, 4, 5, 6, 7, 14, 15, 25, 36], s.readByte a = t.readByte a) : s.frameClass = t.frameClass := by
  have hdst : s.readBytes 2 6 = t.readBytes 2 6 :=
    readBytes_eq fun a hlo hhi => hbytes a (by simp only [List.mem_cons]; omega)
  have htype : s.readHalf 14 = t.readHalf 14 :=
    congrArg₂ be16 (hbytes 14 (by decide)) (hbytes 15 (by decide))
  rw [State.frameClass, State.frameClass, hdst, htype, hbytes 25 (by decide), hbytes 36 (by decide), classOf_congr hmac]

/-- Settles O26: states that agree on the station address and the ten bytes have one classification, and CLASS writes just that. -/
theorem classReadsNothingElse : Obligations.ClassReadsNothingElse := by
  intro s t hmac hbytes
  exact ⟨s.frameClass, exec_classify s, frameClass_congr hmac hbytes ▸ exec_classify t⟩

end Sys2Proof.Machine
end

section
/-! PROOFS. The statements about the Packet Mutator (43_mutator.md): the address swaps (R141, R142, R147), the type change (R143), and the two checksum refreshes (R144, R145, R148). -/

namespace Sys2Proof.Machine

/-! ## What the mutator's operations come to -/

theorem exec_swapmac (s : State) : exec .swapmac s = .next (s.swapRange 2 8 6) := rfl

theorem exec_swapip (s : State) : exec .swapip s = .next (s.swapRange 28 32 4) := rfl

theorem exec_settype (s : State) : exec .settype s = .next (s.writeByte 36 0) := rfl

theorem exec_ipcsum (s : State) : exec .ipcsum s = .next (s.refreshChecksum 26 16 20) := rfl

theorem exec_icmpcsum_of_short {s : State} (h : s.rxLen.toNat < 36) :
    exec .icmpcsum s = .next (s.raise (.icmpShort s.rxLen)) := if_pos h

theorem exec_icmpcsum_of_inside {s : State} (hlo : 36 ≤ s.rxLen.toNat) (hhi : s.rxLen.toNat ≤ 128) :
    exec .icmpcsum s = .next (s.refreshChecksum 38 36 (s.rxLen.toNat - 36)) :=
  (if_neg (Nat.not_lt.2 hlo)).trans (if_pos hhi)

/-! ## The swaps -/

/-- Exchanging two neighbouring ranges moves every byte by the length of one (43_mutator.md R141, R142). -/
theorem readByte_swapRange_neighbours (s : State) (a n c : Nat) :
    (s.swapRange a (a + n) n).readByte c =
      if a ≤ c ∧ c < a + n then s.readByte (c + n)
      else if a + n ≤ c ∧ c < a + n + n then s.readByte (c - n) else s.readByte c := by
  rw [readByte_swapRange s a (a + n) n c (Nat.le_refl _)]
  split
  · exact congrArg s.readByte (by omega)
  · split
    · exact congrArg s.readByte (by omega)
    · rfl

/-- Exchanging two disjoint ranges twice puts every byte back, and a canonical buffer has one list for its bytes (43_mutator.md R147). -/
theorem swapRange_swapRange {s : State} (hwf : Memory.wf s.cfg s.mem) {a b n : Nat} (hab : a + n ≤ b) (hb : b + n ≤ 128) :
    (s.swapRange a b n).swapRange a b n = s := by
  have hcfg : (s.swapRange a b n).cfg = s.cfg := by rw [swapRange_eq]
  have hcfg' : ((s.swapRange a b n).swapRange a b n).cfg = s.cfg := by rw [swapRange_eq, hcfg]
  have hone : Memory.wf (s.swapRange a b n).cfg (s.swapRange a b n).mem :=
    hcfg ▸ wf_swapRange hwf a b n (by omega) hb
  have htwo := wf_swapRange hone a b n (by omega) hb
  rw [hcfg, ← hcfg'] at htwo
  have hmem : ((s.swapRange a b n).swapRange a b n).mem = s.mem := by
    refine mem_eq_of_readByte hcfg' hwf htwo fun c => ?_
    simp only [readByte_swapRange _ _ _ _ _ hab]
    by_cases hlo : a ≤ c ∧ c < a + n
    · rw [if_pos hlo, if_neg (by omega), if_pos (by omega)]
      exact congrArg s.readByte (by omega)
    · by_cases hhi : b ≤ c ∧ c < b + n
      · rw [if_neg hlo, if_pos hhi, if_pos (by omega)]
        exact congrArg s.readByte (by omega)
      · rw [if_neg hlo, if_neg hhi, if_neg hlo, if_neg hhi]
  rw [swapRange_eq, hmem, swapRange_eq]

/-- Settles O27: SWAPMAC exchanges two neighbouring ranges of six bytes. -/
theorem swapmacExchangesTheMacAddresses : Obligations.SwapmacExchangesTheMacAddresses :=
  ⟨rfl, fun s => ⟨_, exec_swapmac s, swapRange_eq s 2 8 6, readByte_swapRange_neighbours s 2 6⟩⟩

/-- Settles O28: SWAPIP exchanges two neighbouring ranges of four bytes. -/
theorem swapipExchangesTheIpAddresses : Obligations.SwapipExchangesTheIpAddresses :=
  ⟨rfl, fun s => ⟨_, exec_swapip s, swapRange_eq s 28 32 4, readByte_swapRange_neighbours s 28 4⟩⟩

/-- Settles O29: both operations exchange two disjoint ranges inside the buffer. -/
theorem swapsRunTwiceRestoreTheState : Obligations.SwapsRunTwiceRestoreTheState := by
  intro s hwf
  refine ⟨⟨_, exec_swapmac s, ?_⟩, ⟨_, exec_swapip s, ?_⟩⟩
  · rw [exec_swapmac, swapRange_swapRange hwf (by decide) (by decide)]
  · rw [exec_swapip, swapRange_swapRange hwf (by decide) (by decide)]

/-! ## The type change -/

/-- Settles O30: SETTYPE is one byte's write, which consults no length. -/
theorem settypeWritesEchoReply : Obligations.SettypeWritesEchoReply :=
  ⟨rfl, fun s => ⟨_, exec_settype s, rfl, fun a => readByte_writeByte s 36 a 0⟩⟩

/-! ## A 16-bit field of a summed range -/

/-- A read after a 16-bit value is stored big-endian (40_checksum.md R104). -/
theorem readByte_storeHalf (s : State) (f : Nat) (c : Half) (a : Nat) :
    (s.storeHalf f c).readByte a =
      if a = f then c.extractLsb' 8 8 else if a = f + 1 then c.extractLsb' 0 8 else s.readByte a := by
  simp only [State.storeHalf, halfBytes, State.writeBytes, readByte_writeByte]
  by_cases hlo : a = f + 1
  · rw [if_pos hlo, if_neg (by omega), if_pos hlo]
  · rw [if_neg hlo, if_neg hlo]

section FieldInRange
variable {f off len : Nat} (hf : off ≤ f) (hlen : f + 2 ≤ off + len)
include hf hlen

/-- A range that holds a stored field, cut around it. -/
theorem readBytes_storeHalf (s : State) (c : Half) : (s.storeHalf f c).readBytes off len =
    s.readBytes off (f - off) ++ halfBytes c ++ s.readBytes (f + 2) (off + len - (f + 2)) := by
  have hbefore : (s.storeHalf f c).readBytes off (f - off) = s.readBytes off (f - off) :=
    readBytes_eq fun a _ _ => by rw [readByte_storeHalf, if_neg (by omega), if_neg (by omega)]
  have hfield : (s.storeHalf f c).readBytes f 2 = halfBytes c := by
    simp [State.readBytes, readByte_storeHalf, halfBytes]
  have hafter : (s.storeHalf f c).readBytes (f + 2) (off + len - (f + 2)) = s.readBytes (f + 2) (off + len - (f + 2)) :=
    readBytes_eq fun a _ _ => by rw [readByte_storeHalf, if_neg (by omega), if_neg (by omega)]
  have hcut : len = f - off + 2 + (off + len - (f + 2)) := by omega
  conv_lhs => rw [hcut]
  rw [readBytes_add, readBytes_add, show off + (f - off) = f by omega, show off + (f - off + 2) = f + 2 by omega,
    hbefore, hfield, hafter]

/-- A stored field at an even place adds its value to the sum of the range around it. -/
theorem wordSum_readBytes_storeHalf (heven : (f - off) % 2 = 0) (s : State) (c : Half) :
    wordSum ((s.storeHalf f c).readBytes off len) =
      wordSum (s.readBytes off (f - off)) + c.toNat + wordSum (s.readBytes (f + 2) (off + len - (f + 2))) := by
  rw [readBytes_storeHalf hf hlen, wordSum_field (by rwa [readBytes_length])]

end FieldInRange

/-! ## Refreshing a checksum field -/

/-- The sum a refresh stores is that of the range with the field zeroed (70_reset_and_hazards.md R245). -/
theorem refreshChecksum_csum (s : State) (f off len : Nat) :
    (s.refreshChecksum f off len).csum = checksum ((s.storeHalf f 0).readBytes off len) := by
  rw [refreshChecksum_eq]; rfl

theorem refreshChecksum_csum_eq_map (s : State) {f off : Nat} (h : off ≤ f) (len : Nat) :
    (s.refreshChecksum f off len).csum = checksum ((List.range len).map
      fun k => if k = f - off ∨ k = f - off + 1 then 0 else s.readByte (off + k)) := by
  rw [refreshChecksum_eq, readBytes_zeroed s f off len h]

/-- A refresh changes nothing but the buffer and `r.csum`. -/
theorem refreshChecksum_frame (s : State) (f off len : Nat) : s.refreshChecksum f off len =
    { s with mem := (s.refreshChecksum f off len).mem, csum := (s.refreshChecksum f off len).csum } := by
  rw [refreshChecksum_eq]

/-- The buffer a refresh leaves is the old one with the sum in the field. -/
theorem readByte_refreshChecksum_eq_storeHalf (s : State) (f off len a : Nat) :
    (s.refreshChecksum f off len).readByte a =
      (s.storeHalf f (s.refreshChecksum f off len).csum).readByte a := by
  rw [readByte_refreshChecksum, readByte_storeHalf]

/-- A range verifies once its checksum field is refreshed (40_checksum.md R103). -/
theorem checksum_refreshChecksum (s : State) {f off len : Nat} (hf : off ≤ f) (hlen : f + 2 ≤ off + len)
    (heven : (f - off) % 2 = 0) : checksum ((s.refreshChecksum f off len).readBytes off len) = 0 := by
  apply checksum_completes (d := (s.storeHalf f 0).readBytes off len)
  rw [readBytes_congr (readByte_refreshChecksum_eq_storeHalf s f off len), refreshChecksum_csum,
    wordSum_readBytes_storeHalf hf hlen heven, wordSum_readBytes_storeHalf hf hlen heven s 0]
  exact Nat.add_right_comm _ _ _

/-- Settles O31: IPCSUM is a refresh of the field at 26, which lies at an even place of the header. -/
theorem ipcsumRefreshesTheHeaderChecksum : Obligations.IpcsumRefreshesTheHeaderChecksum := by
  refine ⟨rfl, fun s => ⟨_, exec_ipcsum s, refreshChecksum_frame s 26 16 20,
    refreshChecksum_csum_eq_map s (by decide) 20, readByte_refreshChecksum s 26 16 20, ?_⟩⟩
  rw [← readBytes_eq_map]
  exact checksum_refreshChecksum s (by decide) (by decide) (by decide)

/-- Settles O32: ICMPCSUM is a refresh of the field at 38, wherever the received range ends, unless that end lies before its start. -/
theorem icmpcsumRefreshesTheMessageChecksum : Obligations.IcmpcsumRefreshesTheMessageChecksum :=
  ⟨rfl, fun s hlo hhi => ⟨_, exec_icmpcsum_of_inside hlo hhi, refreshChecksum_frame s 38 36 _,
    refreshChecksum_csum_eq_map s (by decide) _, readByte_refreshChecksum s 38 36 _⟩,
    fun _ hshort => exec_icmpcsum_of_short hshort⟩

/-! ## What the earlier operations do to the sums -/

/-- The sum of two ranges of even length does not see their order (43_mutator.md R148). -/
theorem wordSum_readBytes_swapRange (s : State) (a : Nat) {n : Nat} (hn : n % 2 = 0) :
    wordSum ((s.swapRange a (a + n) n).readBytes a (n + n)) = wordSum (s.readBytes a (n + n)) := by
  have hlow : (s.swapRange a (a + n) n).readBytes a n = s.readBytes (a + n) n := by
    rw [readBytes_eq_map, readBytes_eq_map]
    refine List.map_congr_left fun k hk => ?_
    have hk := List.mem_range.1 hk
    rw [readByte_swapRange_neighbours, if_pos (by omega)]
    exact congrArg s.readByte (by omega)
  have hhigh : (s.swapRange a (a + n) n).readBytes (a + n) n = s.readBytes a n := by
    rw [readBytes_eq_map, readBytes_eq_map]
    refine List.map_congr_left fun k hk => ?_
    have hk := List.mem_range.1 hk
    rw [readByte_swapRange_neighbours, if_neg (by omega), if_pos (by omega)]
    exact congrArg s.readByte (by omega)
  rw [readBytes_add, readBytes_add, wordSum_append _ _ (by rwa [readBytes_length]),
    wordSum_append _ _ (by rwa [readBytes_length]), hlow, hhigh, Nat.add_comm]

/-- Settles O34: what follows the checksum field in the header is just the two addresses, and what precedes it SWAPIP leaves alone. -/
theorem headerChecksumUnchangedBySwap : Obligations.HeaderChecksumUnchangedBySwap := by
  intro s
  refine ⟨_, _, _, exec_ipcsum s, exec_swapip s, exec_ipcsum _, ?_⟩
  have hbefore : (s.swapRange 28 32 4).readBytes 16 10 = s.readBytes 16 10 :=
    readBytes_eq fun a _ _ => by
      rw [readByte_swapRange _ _ _ _ _ (by decide), if_neg (by omega), if_neg (by omega)]
  have haddresses : wordSum ((s.swapRange 28 32 4).readBytes 28 8) = wordSum (s.readBytes 28 8) :=
    wordSum_readBytes_swapRange s 28 (n := 4) (by decide)
  rw [refreshChecksum_csum, refreshChecksum_csum]
  apply checksum_congr
  rw [wordSum_readBytes_storeHalf (by decide) (by decide) rfl, wordSum_readBytes_storeHalf (by decide) (by decide) rfl,
    hbefore, haddresses]

/-- Two ranges that differ in their first byte alone: it weighs 256 in the sum (40_checksum.md R101). -/
theorem wordSum_map_range_of_first {f g : Nat → Byte} (h : ∀ k, k ≠ 0 → f k = g k) {n : Nat} (hn : 2 ≤ n) :
    wordSum ((List.range n).map f) + (g 0).toNat * 256 = wordSum ((List.range n).map g) + (f 0).toNat * 256 := by
  have hrest : (fun k => f (0 + 2 + k)) = fun k => g (0 + 2 + k) := funext fun k => h _ (by omega)
  rw [map_range_split f 0 n hn, map_range_split g 0 n hn, hrest, h (0 + 1) (by decide)]
  simp only [List.range_zero, List.map_nil, List.nil_append, List.cons_append, wordSum, be16_toNat]
  omega

/-- Taking `k` off a sum adds `k` to its checksum, modulo 0xFFFF (40_checksum.md R102). -/
theorem checksum_toNat_mod_of_wordSum {d e : List Byte} {k : Nat} (h : wordSum d = wordSum e + k) :
    (checksum e).toNat % 65535 = ((checksum d).toNat + k) % 65535 := by
  have hd := foldSum_le (wordSum d)
  have he := foldSum_le (wordSum e)
  have hdmod := foldSum_mod (wordSum d)
  have hemod := foldSum_mod (wordSum e)
  rw [checksum_toNat, checksum_toNat]
  omega

/-- Settles O35: SETTYPE takes the type 8 off the high byte of the message's first word, so it takes 0x0800 off the sum. -/
theorem messageChecksumAfterTypeChange : Obligations.MessageChecksumAfterTypeChange := by
  intro s hlo hhi htype hcorrect
  refine ⟨_, _, exec_settype s, exec_icmpcsum_of_inside (s := s.writeByte 36 0) (Nat.le_trans (by decide) hlo) hhi, ?_⟩
  rw [refreshChecksum_csum_eq_map _ (by decide), ← hcorrect, State.writeByte_rxLen]
  apply checksum_toNat_mod_of_wordSum
  have hsum := wordSum_map_range_of_first
    (f := fun k => if k = 2 ∨ k = 3 then 0 else s.readByte (36 + k))
    (g := fun k => if k = 2 ∨ k = 3 then 0 else (s.writeByte 36 0).readByte (36 + k))
    (fun k hk => by rw [readByte_writeByte, if_neg (c := 36 + k = 36) (by omega)])
    (n := s.rxLen.toNat - 36) (by omega)
  simpa [htype] using hsum

end Sys2Proof.Machine
end

section
/-! PROOFS. The statements about the FIFO Transmitter (44_transmitter.md): XMIT's announcement, words and count check (R160 to R164), and a received frame sent back (R166). -/

namespace Sys2Proof.Machine

theorem exec_xmit_of_inside {s : State} (h : s.rxLen.toNat ≤ 128) : exec .xmit s = .next (transmit s) := if_pos h

/-- The word-count check as one record update (44_transmitter.md R164). -/
theorem checkSent_eq (s : State) : s.checkSent =
    { s with fault := if s.txSent = s.txExpect then s.fault else s.fault.add (.txMismatch s.txExpect s.txSent) } := by
  by_cases h : s.txSent = s.txExpect
  · rw [checkSent_of_eq h, if_pos h]
  · rw [checkSent_of_ne h, if_neg h]
    rfl

/-- XMIT as one record update, its check included (44_transmitter.md R160 to R164). -/
theorem transmit_update (s : State) :
    transmit s =
      { s with
        w := if ceilDiv s.rxLen.toNat 4 = 0 then s.w else s.frameWord (ceilDiv s.rxLen.toNat 4 - 1)
        txExpect := payloadWords s.bitLen
        txSent := BitVec.ofNat 28 (ceilDiv s.rxLen.toNat 4)
        txq := s.txq ++ s.bitLen :: (List.range (ceilDiv s.rxLen.toNat 4)).map s.frameWord
        trace := s.trace ++ .txAnnounce s.bitLen ::
          (List.range (ceilDiv s.rxLen.toNat 4)).map (fun k => .txPush (s.frameWord k))
        fault := if BitVec.ofNat 28 (ceilDiv s.rxLen.toNat 4) = payloadWords s.bitLen then s.fault
          else s.fault.add (.txMismatch (payloadWords s.bitLen) (BitVec.ofNat 28 (ceilDiv s.rxLen.toNat 4))) } := by
  rw [transmit_eq, checkSent_eq, ← List.range_eq_range', getLastD_map_range]

/-- XMIT writes neither the buffer nor what reads depend on. -/
theorem readByte_transmit (s : State) (a : Nat) : (transmit s).readByte a = s.readByte a := by
  rw [transmit_fields]
  exact readByte_congr rfl rfl a

/-- Where the words the receive length needs are as many as the length word announces, the check passes. -/
theorem transmit_of_count_eq {s : State} (h : ceilDiv s.rxLen.toNat 4 = (payloadWords s.bitLen).toNat) :
    (transmit s).fault = s.fault ∧ (transmit s).txSent = (transmit s).txExpect := by
  have hcount : BitVec.ofNat 28 (ceilDiv s.rxLen.toNat 4) = payloadWords s.bitLen := by
    rw [h, BitVec.ofNat_toNat, BitVec.setWidth_eq]
  rw [transmit_update]
  exact ⟨if_pos hcount, hcount⟩

/-- Where they are not, TX_MISMATCH records both counts. -/
theorem transmit_fault_of_count_ne {s : State}
    (h : ceilDiv s.rxLen.toNat 4 ≠ (payloadWords s.bitLen).toNat) :
    (transmit s).fault =
      s.fault.add (.txMismatch (payloadWords s.bitLen) (BitVec.ofNat 28 (ceilDiv s.rxLen.toNat 4))) := by
  have hcount : BitVec.ofNat 28 (ceilDiv s.rxLen.toNat 4) ≠ payloadWords s.bitLen := by
    intro he
    rw [← he, BitVec.toNat_ofNat] at h
    have := s.rxLen.isLt
    simp only [ceilDiv] at h
    omega
  rw [transmit_update]
  exact if_neg hcount

/-- Settles O36: XMIT as one record update; with the receive length RECV leaves, 32 words are pushed of a frame beyond the buffer, and else all that were announced. -/
theorem xmitSendsTheFrame : Obligations.XmitSendsTheFrame := by
  refine ⟨rfl, fun s hlen => ?_, fun s hlen => ?_⟩
  · rw [exec_xmit_of_inside hlen, transmit_update, payloadWords_eq]
    rfl
  · have hwords := payloadWords_toNat s.bitLen
    refine ⟨transmit s, exec_xmit_of_inside (by omega), fun hfits => ?_, fun hbeyond => ?_⟩
    · exact transmit_of_count_eq (by rw [ceilDiv, hwords]; omega)
    · have hpushed : ceilDiv s.rxLen.toNat 4 = 32 := by rw [ceilDiv]; omega
      rw [transmit_fault_of_count_ne (by omega), hpushed, payloadWords_eq]
      rfl

section WholeFrameThatFits

variable {s : State} {len : Word} {ws rest : List Word} (hready : s.rxReady = true)
  (hqueue : s.rxq = len :: (ws ++ rest)) (hwords : ws.length = (payloadWords len).toNat) (hfits : ws.length ≤ 32)

include hready hqueue hwords

/-- RECV of a whole frame records its length word, leaves the queue after it, and touches neither the transmit side nor the flags. -/
theorem receive_frame_fields : (receive s).bitLen = len ∧ (receive s).rxq = rest ∧ (receive s).txq = s.txq ∧
    (receive s).fault = s.fault := by
  obtain ⟨m, hreceive, -, -⟩ := receive_frame len ws rest hready hqueue hwords
  rw [hreceive]
  exact ⟨rfl, rfl, rfl, rfl⟩

include hfits

/-- The receive length of a frame that fits is that of its words (41_receiver.md R115). -/
theorem receive_frame_rxLen : (receive s).rxLen.toNat = 4 * ws.length := by
  obtain ⟨m, hreceive, -, -⟩ := receive_frame len ws rest hready hqueue hwords
  rw [hreceive, BitVec.toNat_ofNat]
  omega

/-- The transmit words of a frame that fits are the words received (20_memory.md R58). -/
theorem receive_frame_frameWords : (List.range ws.length).map (receive s).frameWord = ws := by
  obtain ⟨m, hreceive, -, hbytes⟩ := receive_frame len ws rest hready hqueue hwords
  have hcopied : ∀ a < 4 * ws.length, (receive s).readByte a = streamByte ws a := by
    intro a ha
    have hread : (receive s).readByte a = ({ s with mem := m } : State).readByte a := by
      rw [hreceive]
      exact readByte_congr rfl rfl a
    rw [hread, hbytes, if_pos (by omega)]
  exact frameWords_of_stream _ ws (receive_frame_rxLen hready hqueue hwords hfits) hcopied

end WholeFrameThatFits

/-- Settles O37: RECV leaves the frame's words in the buffer and their length in `r.rxLen`, so that XMIT assembles the same words and pushes as many as it announces. -/
theorem frameSentBackWordForWord : Obligations.FrameSentBackWordForWord := by
  intro s len ws rest hready hqueue hlength hbyteCount
  have hwords : ws.length = (payloadWords len).toNat := by rw [payloadWords_toNat, hlength]
  have hfits : ws.length ≤ 32 := by omega
  obtain ⟨hbitLen, hrxq, htxq, hfault⟩ := receive_frame_fields hready hqueue hwords
  have hrxLen := receive_frame_rxLen hready hqueue hwords hfits
  have hcount : ceilDiv (receive s).rxLen.toNat 4 = ws.length := by rw [ceilDiv]; omega
  refine ⟨receive s, transmit (receive s), exec_recv s, exec_xmit_of_inside (by omega), ?_, ?_, ?_,
    readByte_transmit _⟩
  · rw [transmit_update, hcount, receive_frame_frameWords hready hqueue hwords hfits, hbitLen, htxq]
  · rw [transmit_fields, hrxq]
  · have hannounced : ceilDiv (receive s).rxLen.toNat 4 = (payloadWords (receive s).bitLen).toNat := by
      rw [hcount, hbitLen, hwords]
    obtain ⟨hkept, -⟩ := transmit_of_count_eq hannounced
    rw [hkept, hfault]

end Sys2Proof.Machine
end

section
/-! PROOFS. The statements about the interface primitives (45_interface.md): RXRDY (R171), RXPOP (R172), TXANN (R173), TXPUSH (R174), SETIND (R175) and HOLD (R176). -/

namespace Sys2Proof.Machine

/-! ## What the interface primitives come to -/

theorem exec_rxrdy (s : State) : exec .rxrdy s = .next s.pollReady := rfl

theorem exec_rxpop (s : State) : exec .rxpop s = .next s.popWord.final := rfl

theorem exec_txann (s : State) : exec .txann s = .next s.announce := rfl

theorem exec_txpush (s : State) : exec .txpush s = .next s.pushWord := rfl

theorem exec_setind (sel : Selector) (s : State) :
    exec (.setind sel) s = .next (s.setIndicator (statusCode s.cfg sel)) := rfl

theorem exec_hold (s : State) :
    exec .hold s = .next ({ s with settleLeft := 0 }.emit (.hold s.cfg.settleDelay)) := by
  rw [← countDown_eq s.cfg.settleDelay]
  rfl

/-! ## The receive side -/

/-- Settles O9: RXRDY is the poll, one sample and its event. -/
theorem rxrdySamplesReady : Obligations.RxrdySamplesReady := ⟨rfl, exec_rxrdy⟩

/-- Settles O10: RXPOP leaves what the pop leaves, whichever way the pop goes. -/
theorem rxpopTakesTheHeadOrUnderflows : Obligations.RxpopTakesTheHeadOrUnderflows := by
  refine ⟨rfl, ?_, ?_⟩
  · intro s x q hqueue
    rw [exec_rxpop, popWord_cons hqueue]
    rfl
  · intro s hempty
    rw [exec_rxpop, popWord_nil hempty]
    rfl

/-! ## The transmit side -/

/-- Settles O11: both ceilings of the word count are exact in their bits. -/
theorem txannAnnouncesTheBitLength : Obligations.TxannAnnouncesTheBitLength := by
  refine ⟨rfl, fun s => ?_⟩
  rw [exec_txann, ← payloadWords_eq]
  rfl

/-- Where 28 bits hold the count after a push, the count before it is not the last one they hold. -/
theorem txSent_ne_allOnes_of_lt {s : State} (h : s.txSent.toNat + 1 < 2 ^ 28) : s.txSent ≠ BitVec.allOnes 28 := by
  intro hfull
  rw [hfull, BitVec.toNat_allOnes] at h
  omega

/-- Where 28 bits hold the count after a push, it is one more than before (45_interface.md R174). -/
theorem txSentNext_toNat {s : State} (h : s.txSent.toNat + 1 < 2 ^ 28) : s.txSentNext.toNat = s.txSent.toNat + 1 := by
  rw [txSentNext_of_ne (txSent_ne_allOnes_of_lt h)]
  exact BitVec.toNat_add_of_lt h

/-- Settles O12: the values TXPUSH counts with are the model's next count and next draw number; they are free only at the last count 28 bits hold. -/
theorem txpushSendsAndCounts : Obligations.TxpushSendsAndCounts :=
  ⟨rfl, fun s => ⟨s.txSentNext, s.drawsNext, exec_txpush s,
    fun h => ⟨txSentNext_toNat h, drawsNext_of_ne (txSent_ne_allOnes_of_lt h)⟩⟩⟩

/-! ## The indicator and the settle delay -/

/-- Settles O13: each selector names its code, and SETIND writes and reports the named code. -/
theorem setindWritesTheSelectedCode : Obligations.SetindWritesTheSelectedCode :=
  ⟨rfl, rfl, rfl, fun s => ⟨exec_setind .idleWait s, exec_setind .frameRx s, exec_setind .idleDone s⟩⟩

/-- Settles O14: the countdown runs out whatever SETTLE_DELAY it starts from. -/
theorem holdEndsWithNoTickLeft : Obligations.HoldEndsWithNoTickLeft := ⟨rfl, exec_hold⟩

end Sys2Proof.Machine
end

section
/-! PROOFS. The statements about the Control Loop (46_control_loop.md): the words its states issue (R190), one Control Loop step from each state (R191 to R195), what holds of every step of it (R190, R196, R197), and what becomes of each kind of frame (R198). -/

namespace Sys2Proof.Machine

/-- Settles O7: each word is the encoding of one operation of the state's list. -/
theorem loopIssuesTheListedWords : Obligations.LoopIssuesTheListedWords := by
  unfold Obligations.LoopIssuesTheListedWords
  decide

/-! ## The same engine at another place of the Control Loop and between other moves of the environment -/

/-- `s` at the Control Loop's place of `t`, with what the environment owns in `t`. -/
def State.placedAs (s t : State) : State :=
  { s with state := t.state, pending := t.pending, rxq := t.rxq, rxReady := t.rxReady, arrivals := t.arrivals }

theorem SameEngine.eq_placedAs {s t : State} (h : SameEngine s t) : t = s.placedAs t := h

theorem sameEngine_placedAs (s t : State) : SameEngine s (s.placedAs t) := rfl

theorem SameEngine.trans {s t u : State} (hst : SameEngine s t) (htu : SameEngine t u) : SameEngine s u :=
  calc u = t.placedAs u := htu.eq_placedAs
    _ = (s.placedAs t).placedAs u := congrArg (State.placedAs · u) hst.eq_placedAs
    _ = s.placedAs u := rfl

theorem SameEngine.halted_eq {s t : State} (h : SameEngine s t) : t.halted = s.halted := by
  rw [h.eq_placedAs]; rfl

theorem SameEngine.readByte_eq {s t : State} (h : SameEngine s t) (a : Nat) : t.readByte a = s.readByte a := by
  obtain ⟨hcfg, hmem, -⟩ := h.fields
  exact readByte_congr hmem hcfg a

theorem SameEngine.loopNext_eq {s t : State} (h : SameEngine s t) (hstate : t.state = s.state) :
    t.loopNext = s.loopNext := by
  obtain ⟨-, -, -, -, hrxOut, hcls, -⟩ := h.fields
  rw [State.loopNext, State.loopNext, hstate, hrxOut, hcls]

theorem writeBytes_placedAs (s t : State) (a : Nat) (bs : List Byte) :
    (s.placedAs t).writeBytes a bs = (s.writeBytes a bs).placedAs t := by
  induction bs generalizing s a with
  | nil => rfl
  | cons b bs ih => exact ih (s.writeByte a b) (a + 1)

theorem swapRange_placedAs (s t : State) (a b n : Nat) :
    (s.placedAs t).swapRange a b n = (s.swapRange a b n).placedAs t := by
  induction n generalizing s a b with
  | zero => rfl
  | succ n ih => exact ih (s.swapByte a b) (a + 1) (b + 1)

theorem sumRange_placedAs (s t : State) (off len : Nat) :
    (s.placedAs t).sumRange off len = (s.sumRange off len).placedAs t := by
  have hread : (s.placedAs t).readBytes off len = s.readBytes off len :=
    readBytes_congr (s := s) (t := s.placedAs t) (fun _ => rfl) off len
  rw [State.sumRange, hread]
  rfl

theorem refreshChecksum_placedAs (s t : State) (f off len : Nat) :
    (s.placedAs t).refreshChecksum f off len = (s.refreshChecksum f off len).placedAs t := by
  simp only [State.refreshChecksum, State.storeHalf]
  rw [writeBytes_placedAs, sumRange_placedAs, writeBytes_placedAs]
  rfl

theorem transmit_placedAs (s t : State) : transmit (s.placedAs t) = (transmit s).placedAs t := by
  rw [transmit_update, transmit_update]
  rfl

/-! ## What an operation that may stop came to, where it answered a next state -/

theorem eq_sumRange_of_exec_csum {off len : Byte} {s u : State} (hu : exec (.csum off len) s = .next u) :
    off.toNat + len.toNat ≤ Config.cap ∧ u = s.sumRange off.toNat len.toNat := by
  rw [show exec (.csum off len) s = execCsum off len s from rfl, execCsum] at hu
  split at hu
  · rename_i hle
    exact ⟨hle, (next_inj hu).symm⟩
  · cases hu

theorem cases_of_exec_icmpcsum {s u : State} (hu : exec .icmpcsum s = .next u) :
    (s.rxLen.toNat < 36 ∧ u = s.raise (.icmpShort s.rxLen)) ∨
      (36 ≤ s.rxLen.toNat ∧ s.rxLen.toNat ≤ 128 ∧ u = s.refreshChecksum 38 36 (s.rxLen.toNat - 36)) := by
  by_cases hshort : s.rxLen.toNat < 36
  · rw [exec_icmpcsum_of_short hshort] at hu
    exact .inl ⟨hshort, (next_inj hu).symm⟩
  · have hlo : 36 ≤ s.rxLen.toNat := Nat.not_lt.1 hshort
    by_cases hhi : s.rxLen.toNat ≤ 128
    · rw [exec_icmpcsum_of_inside hlo hhi] at hu
      exact .inr ⟨hlo, hhi, (next_inj hu).symm⟩
    · obtain ⟨hstop, -⟩ := readsBeyondTheBufferStop s (Nat.not_le.1 hhi)
      cases hstop.symm.trans hu

theorem eq_transmit_of_exec_xmit {s u : State} (hu : exec .xmit s = .next u) :
    s.rxLen.toNat ≤ 128 ∧ u = transmit s := by
  by_cases hlen : s.rxLen.toNat ≤ 128
  · rw [exec_xmit_of_inside hlen] at hu
    exact ⟨hlen, (next_inj hu).symm⟩
  · obtain ⟨-, hstop⟩ := readsBeyondTheBufferStop s (Nat.not_le.1 hlen)
    cases hstop.symm.trans hu

/-! ## Operations that do not look at the receive side -/

/-- The operations that look at what the environment owns (20_memory.md R50). -/
def receiveOps : List Instr := [.rxrdy, .rxpop, .recv]

/-- Every other operation has one effect wherever the Control Loop stands and whatever is queued. -/
theorem exec_placedAs {i : Instr} {s u : State} (hi : i ∉ receiveOps) (hu : exec i s = .next u) (t : State) :
    exec i (s.placedAs t) = .next (u.placedAs t) := by
  cases i with
  | rxrdy | rxpop | recv => exact absurd (by decide) hi
  | csum off len =>
    obtain ⟨hle, rfl⟩ := eq_sumRange_of_exec_csum hu
    exact (if_pos hle).trans (congrArg _ (sumRange_placedAs s t off.toNat len.toNat))
  | swapmac => rw [exec_swapmac] at hu ⊢; rw [swapRange_placedAs, next_inj hu]
  | swapip => rw [exec_swapip] at hu ⊢; rw [swapRange_placedAs, next_inj hu]
  | ipcsum => rw [exec_ipcsum] at hu ⊢; rw [refreshChecksum_placedAs, next_inj hu]
  | icmpcsum =>
    rcases cases_of_exec_icmpcsum hu with ⟨hshort, rfl⟩ | ⟨hlo, hhi, rfl⟩
    · exact exec_icmpcsum_of_short (s := s.placedAs t) hshort
    · rw [← refreshChecksum_placedAs]
      exact exec_icmpcsum_of_inside (s := s.placedAs t) hlo hhi
  | xmit =>
    obtain ⟨hlen, rfl⟩ := eq_transmit_of_exec_xmit hu
    rw [← transmit_placedAs]
    exact exec_xmit_of_inside (s := s.placedAs t) hlen
  | txann | txpush | setind _ | hold | classify | settype => cases next_inj hu; rfl

/-! ## How a Control Loop step runs -/

theorem step_of_pending {s u : State} {i : Instr} {rest : List Word} (hrun : s.halted = false)
    (hp : s.pending = encode i :: rest) (hwf : i.wf = true) (hu : exec i s = .next u) :
    step s = .next (retire s i u) :=
  step_of_exec hrun hp (decode_encode hwf) hu

/-- Entering a state that then begins its step, the environment moving. -/
theorem atStart_enter_environment {u : State} (hrun : u.halted = false) (q : LoopState) :
    AtStart q (u.enter q).environment := ⟨hrun, rfl, rfl⟩

/-- The operations of a list, run one after the other on one engine with no move of the environment between them: none looks at the receive side, none raises, and none is a CLASS that ends its Control Loop step early (46_control_loop.md R192). -/
inductive RunsThrough : List Instr → State → State → Prop
  | nil (s : State) : RunsThrough [] s s
  | cons {i : Instr} {is : List Instr} {s t u : State} (hi : i ∉ receiveOps) (ht : exec i s = .next t)
      (hrun : t.halted = false) (hon : ¬ (i = .classify ∧ t.cls = .notForUs)) (h : RunsThrough is t u) :
      RunsThrough (i :: is) s u

theorem RunsThrough.state_eq {is : List Instr} {s u : State} (h : RunsThrough is s u) : u.state = s.state := by
  induction h with
  | nil s => rfl
  | cons _ ht _ _ _ ih => rw [ih, (exec_kept ht).state]

/-- The rest of a Control Loop step runs as its operations do on one engine, whatever the environment does between them, and the next state begins. -/
theorem RunsThrough.run_rest {is : List Instr} {s u : State} (h : RunsThrough is s u) (hne : is ≠ [])
    (hwf : ∀ i ∈ is, i.wf = true) {s' : State} (hrun' : s'.halted = false) (hsame : SameEngine s s')
    (hstate : s'.state = s.state) (hp : s'.pending = is.map encode) :
    ∃ t, Host.Core.run Sys2Proof.core is.length s' = .next t ∧ AtStart u.loopNext t ∧ SameEngine u t := by
  induction h generalizing s' with
  | nil => exact absurd rfl hne
  | @cons i is s v u hi hv hrun hon h ih =>
    have hexec : exec i s' = .next (v.placedAs s') :=
      (congrArg (exec i) hsame.eq_placedAs).trans (exec_placedAs hi hv s')
    have hv' : (v.placedAs s').state = v.state := hstate.trans (exec_kept hv).state.symm
    have hstep := step_of_pending hrun' hp (hwf i List.mem_cons_self) hexec
    have hon' : ¬ ((v.placedAs s').state = .classify ∧ i = .classify ∧ (v.placedAs s').cls = .notForUs) :=
      fun hc => hon hc.2
    cases is with
    | nil =>
      cases h
      rw [retire_last (t := v.placedAs s') hp hrun hon'] at hstep
      refine ⟨_, run_of_step 0 hstep, ?_, rfl⟩
      rw [← (sameEngine_placedAs v s').loopNext_eq hv']
      exact atStart_enter_environment (u := v.placedAs s') hrun _
    | cons j js =>
      rw [retire_more (t := v.placedAs s') hp (List.cons_ne_nil _ _) hrun hon'] at hstep
      obtain ⟨t, hruns, hstart, hend⟩ := ih (List.cons_ne_nil _ _) (fun k hk => hwf k (List.mem_cons_of_mem _ hk))
        (s' := State.environment { v.placedAs s' with pending := (j :: js).map encode }) hrun rfl hv' rfl
      exact ⟨t, (run_of_step _ hstep).trans hruns, hstart, hend⟩

/-- A whole Control Loop step runs as its operations do on one engine. -/
theorem RunsThrough.run_step {q : LoopState} {s u : State} (hs : AtStart q s) (h : RunsThrough (loopOps q) s u) :
    ∃ t, Host.Core.run Sys2Proof.core (loopOps q).length s = .next t ∧ AtStart u.loopNext t ∧ SameEngine u t := by
  obtain ⟨hrun, -, hp⟩ := hs
  exact h.run_rest (by cases q <;> exact List.cons_ne_nil _ _) (loopOps_wf q) hrun rfl rfl hp

/-- A Control Loop step of one operation, raising or not (60_exceptions.md R213). -/
theorem step_of_single_op {q : LoopState} {i : Instr} {s u : State} (hs : AtStart q s) (hops : loopOps q = [i])
    (hi : i ≠ .classify) (hu : exec i s = .next u) : step s = .next (retire s i u) ∧
      (u.halted = true → (retire s i u).state = q) ∧ (u.halted = false → AtStart u.loopNext (retire s i u)) := by
  obtain ⟨hrun, hstate, hp⟩ := hs
  rw [loopWords, hops] at hp
  have hwf : i.wf = true := loopOps_wf q i (hops ▸ List.mem_cons_self)
  refine ⟨step_of_pending hrun hp hwf hu, fun hraised => ?_, fun hgoes => ?_⟩
  · rw [retire_halted s i hraised]
    exact (exec_kept hu).state.trans hstate
  · rw [retire_last hp hgoes (fun hc => hi hc.2.1)]
    exact atStart_enter_environment hgoes u.loopNext

/-! ## One Control Loop step from each state -/

theorem receive_ind (s : State) : (receive s).ind = s.ind := by
  rcases receive_cases s with hready | ⟨hready, hqueue⟩ | ⟨len, ws, hready, hqueue, hshort⟩ |
    ⟨len, ws, rest, hready, hqueue, hwhole⟩
  · rw [receive_none hready]
  · rw [receive_empty hready hqueue]
  · obtain ⟨m, hreceive, -, -⟩ := receive_short len ws hready hqueue hshort
    rw [hreceive]
  · obtain ⟨m, hreceive, -, -⟩ := receive_frame len ws rest hready hqueue hwhole
    rw [hreceive]

/-- The state after WAIT is decided by the receive outcome (46_control_loop.md R191). -/
theorem loopNext_of_wait {s : State} (h : s.state = .wait) :
    s.loopNext = if s.rxOut = .frame then .classify else .wait := by
  rw [State.loopNext, h]

/-- Settles O38: RECV is the one operation of WAIT's step, and what follows it branches on the outcome it wrote. -/
theorem waitStepRunsRecv : Obligations.WaitStepRunsRecv := by
  intro s hs
  obtain ⟨hstep, hraised, hnext⟩ := step_of_single_op hs rfl (by decide) (exec_recv s)
  have hsame := sameEngine_retire s .recv (receive s)
  obtain ⟨-, -, -, -, hrxOut, -, -, hind, -⟩ := hsame.fields
  obtain ⟨-, hstate, -⟩ := hs
  rw [loopNext_of_wait ((receive_kept s).state.trans hstate), ← hrxOut] at hnext
  rw [← hsame.halted_eq] at hraised hnext
  refine ⟨receive s, _, exec_recv s, hstep, hsame, hind.trans (receive_ind s), hraised, fun hrun hframe => ?_,
    fun hrun hframe => ?_⟩
  · simpa only [if_pos hframe] using hnext hrun
  · simpa only [if_neg hframe] using hnext hrun

/-- What follows a CLASS that finds the frame not for us (46_control_loop.md R192). -/
theorem retire_classify_notForUs (s : State) {u : State} (hrun : u.halted = false) (hstate : u.state = .classify)
    (hcls : u.cls = .notForUs) : retire s .classify u = (u.enter .wait).environment := by
  rw [retire, State.advance, if_neg (by rw [hrun]; decide), if_pos ⟨hstate, rfl, hcls⟩]

theorem classify_step_of_foreign {s : State} (hs : AtStart .classify s) (hforeign : s.frameClass = .notForUs) :
    ∃ t, step s = .next t ∧ AtStart .wait t ∧ SameEngine { s with cls := s.frameClass } t := by
  obtain ⟨hrun, hstate, hp⟩ := hs
  have hstep := step_of_pending hrun hp rfl (exec_classify s)
  rw [retire_classify_notForUs (u := { s with cls := s.frameClass }) s hrun hstate hforeign] at hstep
  exact ⟨_, hstep, atStart_enter_environment hrun .wait, rfl⟩

theorem classify_step_of_mine {s : State} (hs : AtStart .classify s) (hmine : s.frameClass ≠ .notForUs) :
    ∃ t, Host.Core.run Sys2Proof.core 2 s = .next t ∧
      AtStart (if s.frameClass = .echoRequest then .process else .settle) t ∧
      SameEngine { s with
        cls := s.frameClass, ind := s.cfg.statusFrameRx, trace := s.trace ++ [.setIndicator s.cfg.statusFrameRx] } t := by
  have ⟨hrun, hstate, _⟩ := hs
  have hops : RunsThrough (loopOps .classify) s
      (State.setIndicator { s with cls := s.frameClass } s.cfg.statusFrameRx) :=
    .cons (by decide) (exec_classify s) hrun (fun hc => hmine hc.2)
      (.cons (by decide) (exec_setind .frameRx _) hrun nofun (.nil _))
  obtain ⟨t, hruns, hstart, hsame⟩ := hops.run_step hs
  rw [State.loopNext, hops.state_eq, hstate] at hstart
  exact ⟨t, hruns, hstart, hsame⟩

/-- Settles O39: CLASS either ends the step at once or is followed by SETIND and the branch on the class. -/
theorem classifyStepBranches : Obligations.ClassifyStepBranches := fun s hs =>
  ⟨s.frameClass, exec_classify s, classify_step_of_foreign hs, classify_step_of_mine hs⟩

/-- Settles O41: XMIT is the one operation of TRANSMIT's step. -/
theorem transmitStepRunsXmit : Obligations.TransmitStepRunsXmit := by
  intro s hs hlen
  obtain ⟨hstep, hraised, hnext⟩ := step_of_single_op hs rfl (by decide) (exec_xmit_of_inside hlen)
  have hsame := sameEngine_retire s .xmit (transmit s)
  obtain ⟨-, hstate, -⟩ := hs
  rw [State.loopNext, (transmit_kept s).state, hstate] at hnext
  rw [← hsame.halted_eq] at hraised hnext
  exact ⟨transmit s, _, exec_xmit_of_inside hlen, hstep, hsame, hnext, hraised⟩

/-- Settles O42: HOLD and SETIND run on one engine, and neither raises. -/
theorem settleStepReturnsToWait : Obligations.SettleStepReturnsToWait := by
  intro s hs
  have ⟨hrun, hstate, _⟩ := hs
  have hops : RunsThrough (loopOps .settle) s
      (({ s with settleLeft := 0 }.emit (.hold s.cfg.settleDelay)).setIndicator s.cfg.statusIdleDone) :=
    .cons (by decide) (exec_hold s) hrun nofun (.cons (by decide) (exec_setind .idleDone _) hrun nofun (.nil _))
  obtain ⟨t, hruns, hstart, hsame⟩ := hops.run_step hs
  rw [State.loopNext, hops.state_eq, hstate] at hstart
  simp only [State.emit, State.setIndicator, List.append_assoc, List.singleton_append] at hsame
  exact ⟨t, hruns, hstart, hsame⟩

/-! ## What holds of every step of the Control Loop -/

/-- Past WAIT no operation of the Control Loop looks at the receive side (46_control_loop.md R197). -/
theorem loopOps_notMem_receiveOps {q : LoopState} (hq : q ≠ .wait) : ∀ i ∈ loopOps q, i ∉ receiveOps := by
  cases q with
  | wait => exact absurd rfl hq
  | classify | process | transmit | settle => decide

/-- CLASS is an operation of CLASSIFY alone (46_control_loop.md R192). -/
theorem classify_mem_loopOps {q : LoopState} (h : .classify ∈ loopOps q) : q = .classify := by
  revert h
  cases q <;> decide

/-- RECV is an operation of WAIT alone (46_control_loop.md R191). -/
theorem recv_mem_loopOps {q : LoopState} (h : .recv ∈ loopOps q) : q = .wait := by
  revert h
  cases q <;> decide

/-- What a step of the Control Loop ran: the next of its state's operations, with the rest of them to follow (46_control_loop.md R190). -/
theorem loop_step {s t : State} (h : IssuesLoop s) (ht : step s = .next t) :
    ∃ i rest u, i ∈ loopOps s.state ∧ s.pending = encode i :: rest ∧ exec i s = .next u ∧ t = retire s i u := by
  obtain ⟨i, rest, -, hdecode, hi, hp, -⟩ := loop_op h
  obtain ⟨j, u, -, hdecode', hu, rfl⟩ := step_next ht
  cases hdecode.symm.trans hdecode'
  exact ⟨i, rest, u, hi, hp, hu, rfl⟩

/-- An event of the receive side: a poll or a pop (10_state.md R33). -/
def Event.isReceive : Event → Bool
  | .rxReady _ | .rxPop _ => true
  | .txAnnounce _ | .txPush _ | .setIndicator _ | .hold _ => false

/-- From `s` to `t` the trace gained no poll and no pop. -/
def NoReceiveEvents (s t : State) : Prop := ∃ es, t.trace = s.trace ++ es ∧ ∀ e ∈ es, e.isReceive = false

theorem NoReceiveEvents.of_trace_eq {s t : State} (h : t.trace = s.trace) : NoReceiveEvents s t :=
  ⟨[], by rw [h, List.append_nil], nofun⟩

theorem NoReceiveEvents.of_emit {s t : State} {e : Event} (h : t.trace = s.trace ++ [e]) (he : e.isReceive = false) :
    NoReceiveEvents s t :=
  ⟨[e], h, by rwa [List.forall_mem_singleton]⟩

theorem transmit_noReceiveEvents (s : State) : NoReceiveEvents s (transmit s) := by
  rw [transmit_update]
  refine ⟨_, rfl, fun e he => ?_⟩
  rcases List.mem_cons.1 he with rfl | he
  · rfl
  · obtain ⟨k, -, rfl⟩ := List.mem_map.1 he
    rfl

theorem exec_noReceiveEvents {i : Instr} {s u : State} (hi : i ∉ receiveOps) (hu : exec i s = .next u) :
    NoReceiveEvents s u := by
  cases i with
  | rxrdy | rxpop | recv => exact absurd (by decide) hi
  | csum off len =>
    obtain ⟨-, rfl⟩ := eq_sumRange_of_exec_csum hu
    exact .of_trace_eq rfl
  | icmpcsum =>
    rcases cases_of_exec_icmpcsum hu with ⟨-, rfl⟩ | ⟨-, -, rfl⟩
    · exact .of_trace_eq rfl
    · exact .of_trace_eq (by rw [refreshChecksum_eq])
  | xmit =>
    obtain ⟨-, rfl⟩ := eq_transmit_of_exec_xmit hu
    exact transmit_noReceiveEvents s
  | swapmac | swapip => cases next_inj hu; exact .of_trace_eq (by rw [swapRange_eq])
  | ipcsum => cases next_inj hu; exact .of_trace_eq (by rw [refreshChecksum_eq])
  | classify | settype => cases next_inj hu; exact .of_trace_eq rfl
  | txann | txpush | setind _ | hold => cases next_inj hu; exact .of_emit rfl rfl

/-- Settles O43: the step's operation is none of the receive side's, so the environment's words are all that the queue gains. -/
theorem noReceiveOutsideWait : Obligations.NoReceiveOutsideWait := by
  intro s t h hstate ht
  obtain ⟨i, rest, u, hi, -, hu, rfl⟩ := loop_step h ht
  have hother : i ∉ receiveOps := loopOps_notMem_receiveOps hstate i hi
  obtain ⟨hrxq, -⟩ := exec_keeps_rxq hu (fun he => hother (he ▸ by decide)) (fun he => hother (he ▸ by decide))
  obtain ⟨es, htrace, hes⟩ := exec_noReceiveEvents hother hu
  refine ⟨by rw [retire_rxq, hrxq, (exec_kept hu).arrivals], es, by rw [retire_trace, htrace], fun e he => ⟨?_, ?_⟩⟩
  · rintro b rfl
    cases hes _ he
  · rintro x rfl
    cases hes _ he

/-- A legal operation answers a next state while the receive length lies in the buffer (20_memory.md R51). -/
theorem exec_next_of_wf {i : Instr} (hwf : i.wf = true) {s : State} (hlen : s.rxLen.toNat ≤ 128) :
    ∃ u, exec i s = .next u := by
  cases i with
  | csum off len => exact ⟨_, if_pos (of_decide_eq_true hwf)⟩
  | icmpcsum =>
    by_cases hshort : s.rxLen.toNat < 36
    · exact ⟨_, exec_icmpcsum_of_short hshort⟩
    · exact ⟨_, exec_icmpcsum_of_inside (Nat.not_lt.1 hshort) hlen⟩
  | xmit => exact ⟨_, exec_xmit_of_inside hlen⟩
  | rxrdy | rxpop | txann | txpush | setind _ | hold | recv | classify | swapmac | swapip | settype | ipcsum =>
    exact ⟨_, rfl⟩

/-- Settles O44: the loop issues legal operations, and the data invariant bounds the receive length. -/
theorem engineStepsUnlessAFaultIsSet : Obligations.EngineStepsUnlessAFaultIsSet := by
  intro s h hrun
  obtain ⟨i, rest, -, hdecode, hi, -⟩ := loop_op h.issues
  obtain ⟨u, hu⟩ := exec_next_of_wf (loopOps_wf _ i hi) h.data.length
  exact ⟨_, step_of_exec_next hrun hdecode hu⟩

/-! ## The Control Loop's invariant -/

theorem issuesLoop_enter (u : State) (q : LoopState) : IssuesLoop (u.enter q) :=
  ⟨by cases q <;> exact List.cons_ne_nil _ _, List.suffix_refl _⟩

theorem IssuesLoop.advance {s u : State} {i : Instr} {rest : List Word} (h : IssuesLoop s)
    (hp : s.pending = encode i :: rest) (hu : exec i s = .next u) : IssuesLoop (u.advance i rest) := by
  have hk := exec_kept hu
  have hissues : IssuesLoop u := by rwa [IssuesLoop, hk.pending, hk.state]
  rcases advance_cases u i rest with ⟨-, he⟩ | ⟨-, -, he⟩ | ⟨-, -, ⟨-, he⟩ | ⟨hrest, he⟩⟩ <;> rw [he]
  · exact hissues
  · exact issuesLoop_enter u .wait
  · exact issuesLoop_enter u u.loopNext
  · obtain ⟨-, hsuffix⟩ := hissues
    rw [hk.pending, hp] at hsuffix
    exact ⟨hrest, (List.suffix_cons _ _).trans hsuffix⟩

/-- In CLASSIFY it is CLASS that leaves an operation to issue (46_control_loop.md R192). -/
theorem eq_classify_iff_rest_ne_nil {i : Instr} {rest : List Word} (hi : i ∈ loopOps .classify)
    (hsuffix : encode i :: rest <:+ loopWords .classify) : i = .classify ↔ rest ≠ [] := by
  have hdiffer : encode .classify ≠ encode (.setind .frameRx) := by decide
  simp only [loopWords, loopOps, List.map_cons, List.map_nil, List.suffix_cons_iff, List.suffix_nil, List.cons.injEq,
    reduceCtorEq, or_false] at hsuffix
  rcases hsuffix with ⟨hword, hrest⟩ | ⟨hword, hrest⟩
  · have hclass : i = .classify := by
      rcases List.mem_pair.1 hi with rfl | rfl
      · rfl
      · exact absurd hword.symm hdiffer
    exact iff_of_true hclass (by rw [hrest]; exact List.cons_ne_nil _ _)
  · have hclass : i ≠ .classify := by
      rintro rfl
      exact hdiffer hword
    exact iff_of_false hclass (not_not_intro hrest)

theorem DecisionsHold.of_eq {s u : State} (h : DecisionsHold s) (hstate : u.state = s.state)
    (hpending : u.pending = s.pending) (hrxOut : u.rxOut = s.rxOut) (hcls : u.cls = s.cls) : DecisionsHold u := by
  rwa [DecisionsHold, hstate, hpending, hrxOut, hcls]

/-- An operation of a state's step leaves the decisions the state rests on: RECV runs where none is taken yet, and CLASS where the class is still open. -/
theorem DecisionsHold.of_exec {s u : State} {i : Instr} {rest : List Word} (h : DecisionsHold s) (hissues : IssuesLoop s)
    (hi : i ∈ loopOps s.state) (hp : s.pending = encode i :: rest) (hu : exec i s = .next u) : DecisionsHold u := by
  have hk := exec_kept hu
  by_cases hrecv : i = .recv
  · have hwait : u.state = .wait := hk.state.trans (recv_mem_loopOps (hrecv ▸ hi))
    rw [DecisionsHold, hwait]
    trivial
  by_cases hclass : i = .classify
  · have hstate : s.state = .classify := classify_mem_loopOps (hclass ▸ hi)
    obtain ⟨-, hsuffix⟩ := hissues
    rw [hp, hstate] at hsuffix
    have hrest : rest ≠ [] := (eq_classify_iff_rest_ne_nil (hstate ▸ hi) hsuffix).1 hclass
    rw [DecisionsHold, hstate] at h
    obtain ⟨hframe, -⟩ := h
    rw [DecisionsHold, hk.state, hstate, hk.pending, hp]
    subst hclass
    cases next_inj hu
    exact ⟨hframe, fun hlen => absurd (List.length_eq_zero_iff.1 (Nat.succ.inj hlen)) hrest⟩
  · obtain ⟨hrxOut, hcls⟩ := decisions_exec hu hrecv hclass
    exact h.of_eq hk.state hk.pending hrxOut hcls

/-- The state a finished step leads to rests on decisions that have been taken (46_control_loop.md R190 to R195). -/
theorem DecisionsHold.enter_loopNext {u : State} (h : DecisionsHold u) (hlast : u.pending.length = 1) :
    DecisionsHold (u.enter u.loopNext) := by
  unfold DecisionsHold at h
  cases hstate : u.state with
  | wait =>
    rw [loopNext_of_wait hstate]
    split
    · rename_i hframe
      exact ⟨hframe, nofun⟩
    · trivial
  | classify =>
    rw [hstate] at h
    obtain ⟨hframe, hmine⟩ := h
    rw [State.loopNext, hstate]
    by_cases hecho : u.cls = .echoRequest
    · simp only [if_pos hecho]
      exact ⟨hframe, hecho⟩
    · simp only [if_neg hecho]
      exact ⟨hframe, hmine hlast⟩
  | process =>
    rw [hstate] at h
    rw [State.loopNext, hstate]
    exact h
  | transmit =>
    rw [hstate] at h
    obtain ⟨hframe, hecho⟩ := h
    rw [State.loopNext, hstate]
    exact ⟨hframe, fun hforeign => nomatch hecho.symm.trans hforeign⟩
  | settle =>
    rw [State.loopNext, hstate]
    trivial

/-- While a step goes on, the decisions stand, and past CLASS the frame is for the station. -/
theorem DecisionsHold.go_on {u : State} (h : DecisionsHold u) (rest : List Word)
    (hmine : u.state = .classify → u.cls ≠ .notForUs) : DecisionsHold { u with pending := rest } := by
  unfold DecisionsHold at h ⊢
  cases hstate : u.state with
  | classify =>
    rw [hstate] at h
    obtain ⟨hframe, -⟩ := h
    exact ⟨hframe, fun _ => hmine hstate⟩
  | wait => trivial
  | process | transmit | settle => rwa [hstate] at h

theorem DecisionsHold.advance {s u : State} {i : Instr} {rest : List Word} (h : DecisionsHold s) (hissues : IssuesLoop s)
    (hi : i ∈ loopOps s.state) (hp : s.pending = encode i :: rest) (hu : exec i s = .next u) :
    DecisionsHold (u.advance i rest) := by
  have hk := exec_kept hu
  have hkept : DecisionsHold u := h.of_exec hissues hi hp hu
  rcases advance_cases u i rest with ⟨-, he⟩ | ⟨-, -, he⟩ | ⟨-, hon, ⟨hrest, he⟩ | ⟨hrest, he⟩⟩ <;> rw [he]
  · exact hkept
  · trivial
  · exact hkept.enter_loopNext (by rw [hk.pending, hp, hrest]; rfl)
  · refine hkept.go_on rest fun hstate hforeign => hon ⟨hstate, ?_, hforeign⟩
    obtain ⟨-, hsuffix⟩ := hissues
    rw [hk.state] at hstate
    rw [hp, hstate] at hsuffix
    exact (eq_classify_iff_rest_ne_nil (hstate ▸ hi) hsuffix).2 hrest

/-- Settles O57: the operation and what follows it keep the place and the decisions; the environment's move touches neither. -/
theorem everyStepKeepsLoopInv : Obligations.EveryStepKeepsLoopInv := by
  intro s t h ht
  have hdata : DataInv t := everyStepKeepsDataInv s t h.data ht
  obtain ⟨i, rest, u, hi, hp, hu, rfl⟩ := loop_step h.issues ht
  have hretire : retire s i u = (u.advance i rest).environment := by rw [retire, issued_tail_of_pending hp]
  rw [hretire] at hdata ⊢
  exact ⟨hdata, h.issues.advance hp hu, h.decisions.advance h.issues hi hp hu⟩

/-! ## The reply made in place -/

theorem sameButBuffer_swapRange (s : State) (a b n : Nat) : SameButBuffer s (s.swapRange a b n) := by
  unfold SameButBuffer SameEngine
  rw [swapRange_eq]

theorem sameButBuffer_writeByte (s : State) (a : Nat) (v : Byte) : SameButBuffer s (s.writeByte a v) := rfl

theorem sameButBuffer_refreshChecksum (s : State) (f off len : Nat) :
    SameButBuffer s (s.refreshChecksum f off len) := by
  unfold SameButBuffer SameEngine
  rw [refreshChecksum_eq]

theorem SameEngine.sameButBuffer {s t : State} (h : SameEngine s t) : SameButBuffer s t := by
  obtain ⟨-, hmem, -, -, -, -, hcsum, -⟩ := h.fields
  rwa [SameButBuffer, hmem, hcsum]

theorem SameButBuffer.halted_eq {s t : State} (h : SameButBuffer s t) : t.halted = s.halted :=
  SameEngine.halted_eq (s := { s with mem := t.mem, csum := t.csum }) h

theorem SameButBuffer.rxLen_eq {s t : State} (h : SameButBuffer s t) : t.rxLen = s.rxLen := by
  obtain ⟨-, -, -, hrxLen, -⟩ := SameEngine.fields (s := { s with mem := t.mem, csum := t.csum }) h
  exact hrxLen

/-- The frame with its address pairs exchanged and its type that of a reply (43_mutator.md R141 to R143). -/
def State.turned (s : State) : State := ((s.swapRange 2 8 6).swapRange 28 32 4).writeByte 36 0

/-- The reply that PROCESS leaves in the buffer (46_control_loop.md R193). -/
def State.reply (s : State) : State :=
  (s.turned.refreshChecksum 26 16 20).refreshChecksum 38 36 (s.rxLen.toNat - 36)

theorem readByte_turned (s : State) (a : Nat) : s.turned.readByte a =
    if 2 ≤ a ∧ a < 8 then s.readByte (a + 6) else if 8 ≤ a ∧ a < 14 then s.readByte (a - 6)
    else if 28 ≤ a ∧ a < 32 then s.readByte (a + 4) else if 32 ≤ a ∧ a < 36 then s.readByte (a - 4)
    else if a = 36 then 0 else s.readByte a := by
  have hmac : ∀ c, (s.swapRange 2 8 6).readByte c = if 2 ≤ c ∧ c < 8 then s.readByte (c + 6)
      else if 8 ≤ c ∧ c < 14 then s.readByte (c - 6) else s.readByte c := readByte_swapRange_neighbours s 2 6
  have hip : ((s.swapRange 2 8 6).swapRange 28 32 4).readByte a =
      if 28 ≤ a ∧ a < 32 then (s.swapRange 2 8 6).readByte (a + 4)
      else if 32 ≤ a ∧ a < 36 then (s.swapRange 2 8 6).readByte (a - 4) else (s.swapRange 2 8 6).readByte a :=
    readByte_swapRange_neighbours _ 28 4 a
  rw [State.turned, readByte_writeByte, hip, hmac, hmac, hmac]
  grind

section Refresh
variable (s : State) (f off len : Nat)

/-- A refreshed field holds the sum, high byte first (40_checksum.md R104). -/
theorem refreshChecksum_field : (s.refreshChecksum f off len).readByte f ++ (s.refreshChecksum f off len).readByte (f + 1) =
    (s.refreshChecksum f off len).csum := by
  rw [readByte_refreshChecksum, if_pos rfl, readByte_refreshChecksum, if_neg (Nat.succ_ne_self f), if_pos rfl]
  exact be16_halfBytes _

theorem readByte_refreshChecksum_of_ne {a : Nat} (hlow : a ≠ f) (hhigh : a ≠ f + 1) :
    (s.refreshChecksum f off len).readByte a = s.readByte a := by
  rw [readByte_refreshChecksum, if_neg hlow, if_neg hhigh]

/-- A refresh stores the sum of the very range it leaves, its field read as zero. -/
theorem refreshChecksum_csum_eq_map_after (h : off ≤ f) :
    (s.refreshChecksum f off len).csum = checksum ((List.range len).map fun k =>
      if k = f - off ∨ k = f - off + 1 then 0 else (s.refreshChecksum f off len).readByte (off + k)) := by
  rw [refreshChecksum_csum_eq_map s h]
  refine congrArg checksum (List.map_congr_left fun k _ => ?_)
  split
  · rfl
  · rw [readByte_refreshChecksum_of_ne] <;> omega

end Refresh

/-- Outside the two checksum fields the reply is the turned frame. -/
theorem readByte_reply {s : State} {a : Nat} (h26 : a ≠ 26) (h27 : a ≠ 27) (h38 : a ≠ 38) (h39 : a ≠ 39) :
    s.reply.readByte a = s.turned.readByte a := by
  rw [State.reply, readByte_refreshChecksum_of_ne _ _ _ _ h38 h39, readByte_refreshChecksum_of_ne _ _ _ _ h26 h27]

/-- The reply's header field holds the sum of the reply's own header (43_mutator.md R144, R149). -/
theorem reply_header_field (s : State) : s.reply.readByte 26 ++ s.reply.readByte 27 =
    checksum ((List.range 20).map fun k => if k = 10 ∨ k = 11 then 0 else s.reply.readByte (16 + k)) := by
  have hheader : ∀ a, a < 36 → s.reply.readByte a = (s.turned.refreshChecksum 26 16 20).readByte a := fun a ha =>
    readByte_refreshChecksum_of_ne _ 38 36 _ (by omega) (by omega)
  rw [hheader 26 (by decide), hheader 27 (by decide), refreshChecksum_field _ 26,
    refreshChecksum_csum_eq_map_after _ _ _ _ (by decide)]
  refine congrArg checksum (List.map_congr_left fun k hk => ?_)
  rw [hheader (16 + k) (by have := List.mem_range.1 hk; omega)]

theorem sameButBuffer_turned (s : State) : SameButBuffer s s.turned :=
  ((sameButBuffer_swapRange s 2 8 6).trans (sameButBuffer_swapRange _ 28 32 4)).trans (sameButBuffer_writeByte _ 36 0)

theorem sameButBuffer_reply (s : State) : SameButBuffer s s.reply :=
  ((sameButBuffer_turned s).trans (sameButBuffer_refreshChecksum _ 26 16 20)).trans (sameButBuffer_refreshChecksum _ 38 36 _)

/-- The five operations of PROCESS make the reply, none of them raising (43_mutator.md R146). -/
theorem runsThrough_process {s : State} (hrun : s.halted = false) (hlo : 36 ≤ s.rxLen.toNat) (hhi : s.rxLen.toNat ≤ 128) :
    RunsThrough (loopOps .process) s s.reply := by
  have hmac := sameButBuffer_swapRange s 2 8 6
  have hip := hmac.trans (sameButBuffer_swapRange _ 28 32 4)
  have hturned := sameButBuffer_turned s
  have hheader := hturned.trans (sameButBuffer_refreshChecksum _ 26 16 20)
  have hmessage : exec .icmpcsum (s.turned.refreshChecksum 26 16 20) = .next s.reply := by
    rw [exec_icmpcsum_of_inside (by rwa [hheader.rxLen_eq]) (by rwa [hheader.rxLen_eq]), hheader.rxLen_eq]
    rfl
  exact .cons (by decide) (exec_swapmac s) (hmac.halted_eq.trans hrun) nofun
    (.cons (by decide) (exec_swapip _) (hip.halted_eq.trans hrun) nofun
    (.cons (by decide) (exec_settype _) (hturned.halted_eq.trans hrun) nofun
    (.cons (by decide) (exec_ipcsum _) (hheader.halted_eq.trans hrun) nofun
    (.cons (by decide) hmessage ((sameButBuffer_reply s).halted_eq.trans hrun) nofun (.nil _)))))

/-- Settles O40: the five operations run on one engine, and what they leave is the reply. -/
theorem processStepMakesTheReply : Obligations.ProcessStepMakesTheReply := by
  intro s hs hlo hhi
  have ⟨hrun, hstate, _⟩ := hs
  have hops := runsThrough_process hrun hlo hhi
  obtain ⟨t, hruns, hstart, hsame⟩ := hops.run_step hs
  rw [State.loopNext, hops.state_eq, hstate] at hstart
  obtain ⟨-, -, -, -, -, -, hcsum, -⟩ := hsame.fields
  refine ⟨t, hruns, hstart, (sameButBuffer_reply s).trans hsame.sameButBuffer, ?_⟩
  simp only [hsame.readByte_eq, hcsum]
  exact ⟨reply_header_field s, refreshChecksum_csum_eq_map_after _ 38 36 _ (by decide), refreshChecksum_field _ 38 36 _,
    fun a h26 h27 h38 h39 => (readByte_reply h26 h27 h38 h39).trans (readByte_turned s a)⟩

/-! ## A frame taken from the queue -/

/-- What WAIT's step leaves in `t` of a whole frame queued in `s` (41_receiver.md R112 to R117). -/
structure FrameReceived (s : State) (len : Word) (ws : List Word) (t : State) : Prop where
  cfg    : t.cfg = s.cfg
  bitLen : t.bitLen = len
  rxLen  : t.rxLen.toNat = min (4 * ws.length) 128
  ind    : t.ind = s.ind
  txq    : t.txq = s.txq
  trace  : t.trace = s.trace ++ .rxReady true :: .rxPop len :: ws.map .rxPop
  bytes  : ∀ a, t.readByte a = if a < min (4 * ws.length) 128 then streamByte ws a else s.readByte a

section FrameQueued

variable {s : State} {len : Word} {ws rest : List Word} (hs : AtStart .wait s) (hready : s.rxReady = true)
  (hqueue : s.rxq = len :: (ws ++ rest)) (hwords : ws.length = ((len.toNat + 7) / 8 + 3) / 4)
include hs hready hqueue hwords

/-- WAIT's step on a whole frame drains it and branches on the oversize guard (41_receiver.md R117, 46_control_loop.md R191). -/
theorem wait_step_of_frame : ∃ t, step s = .next t ∧ FrameReceived s len ws t ∧
    t.rxq = rest ++ arrivingWords s.arrivals ∧
    AtStart (if (len.toNat + 7) / 8 > 128 + s.cfg.oversizeSlack then .wait else .classify) t := by
  obtain ⟨m, hreceive, -, hbytes⟩ := receive_frame len ws rest hready hqueue (by rw [payloadWords_toNat, hwords])
  obtain ⟨hstep, -, hnext⟩ := step_of_single_op hs rfl (by decide) (exec_recv s)
  have hsame := sameEngine_retire s .recv (receive s)
  have hrxq := retire_rxq s .recv (receive s)
  generalize retire s .recv (receive s) = t at hstep hnext hsame hrxq
  obtain ⟨hrun, hstate, -⟩ := hs
  obtain ⟨hcfg, -, hbitLen, hrxLen, -, -, -, hind, -, htxq, htrace⟩ := hsame.fields
  have hread := hsame.readByte_eq
  rw [loopNext_of_wait ((receive_kept s).state.trans hstate)] at hnext
  rw [hreceive] at hcfg hbitLen hrxLen hind htxq htrace hread hrxq hnext
  refine ⟨t, hstep, ⟨hcfg, hbitLen, ?_, hind, htxq, htrace, fun a => (hread a).trans (hbytes a)⟩, hrxq, ?_⟩
  · rw [hrxLen, BitVec.toNat_ofNat]
    omega
  · have hstart := hnext hrun
    rw [frameOutcome_byteCountOf] at hstart
    by_cases hbig : (len.toNat + 7) / 8 > 128 + s.cfg.oversizeSlack
    · simpa only [if_pos hbig, reduceCtorEq, if_false] using hstart
    · simpa only [if_neg hbig, if_true] using hstart

/-- A frame that is not oversize is left to CLASSIFY. -/
theorem wait_step_of_frame_kept (hkept : (len.toNat + 7) / 8 ≤ 128 + s.cfg.oversizeSlack) :
    ∃ t, step s = .next t ∧ FrameReceived s len ws t ∧ AtStart .classify t := by
  obtain ⟨t, hstep, hframe, -, hstart⟩ := wait_step_of_frame hs hready hqueue hwords
  rw [if_neg (Nat.not_lt.2 hkept)] at hstart
  exact ⟨t, hstep, hframe, hstart⟩

end FrameQueued

/-- Settles O46: the guard sends the loop back to WAIT once the frame is drained. -/
theorem oversizeFrameIsDrainedAndDropped : Obligations.OversizeFrameIsDrainedAndDropped := by
  intro s len ws rest hs hready hqueue hwords hbig
  obtain ⟨t, hstep, hframe, hrxq, hstart⟩ := wait_step_of_frame hs hready hqueue hwords
  rw [if_pos hbig] at hstart
  exact ⟨t, hstep, hstart, hrxq, hframe.ind, hframe.txq, hframe.trace⟩

/-! ## A frame that is not answered -/

theorem frameClass_eq_notForUs_iff (s : State) : s.frameClass = .notForUs ↔ ¬ s.AddressedToStation := by
  rw [frameClass_eq]
  split_ifs <;> simp only [true_iff, false_iff] <;> tauto

theorem frameClass_eq_echoRequest_iff (s : State) : s.frameClass = .echoRequest ↔
    s.AddressedToStation ∧ s.CarriesIpv4 ∧ s.readByte 25 = 1 ∧ s.readByte 36 = 8 := by
  rw [frameClass_eq]
  split_ifs <;> simp only [true_iff, false_iff] <;> tauto

/-- Settles O47: CLASS finds the address wrong, which ends the second Control Loop step with no indicator action. -/
theorem foreignFrameLeavesNoOutput : Obligations.ForeignFrameLeavesNoOutput := by
  intro s len ws rest hs hready hqueue hwords hkept ⟨i, hi, hdiffers⟩
  obtain ⟨t, hstep, hframe, hclassify⟩ := wait_step_of_frame_kept hs hready hqueue hwords hkept
  have hforeign : t.frameClass = .notForUs := by
    rw [frameClass_eq_notForUs_iff]
    intro hmine
    refine hdiffers ?_
    rw [← hframe.cfg, ← hmine i hi, hframe.bytes]
    exact if_congr (by omega) rfl rfl
  obtain ⟨u, hstep', hstart, hsame⟩ := classify_step_of_foreign hclassify hforeign
  obtain ⟨-, -, -, -, -, hcls, -, hind, -, htxq, htrace⟩ := hsame.fields
  exact ⟨u, (run_of_step 1 hstep).trans (run_of_step 0 hstep'), hstart, hcls.trans hforeign, hind.trans hframe.ind,
    htxq.trans hframe.txq, htrace.trans hframe.trace⟩

/-- Settles O48: past the address check CLASS finds no Echo Request, and SETTLE's step ends what CLASSIFY began. -/
theorem matchedButOtherFrameIsSettled : Obligations.MatchedButOtherFrameIsSettled := by
  intro s len ws rest hs hready hqueue hwords hkept byte haddressed hother
  obtain ⟨t, hstep, hframe, hclassify⟩ := wait_step_of_frame_kept hs hready hqueue hwords hkept
  have hbyte : ∀ a, t.readByte a = byte a := hframe.bytes
  have hmine : t.frameClass ≠ .notForUs := by
    rw [Ne, frameClass_eq_notForUs_iff, not_not]
    intro i hi
    rw [hbyte, hframe.cfg, haddressed i hi]
  have hnotEcho : t.frameClass ≠ .echoRequest := by
    rw [Ne, frameClass_eq_echoRequest_iff]
    rintro ⟨-, ⟨htypeHi, htypeLo⟩, hproto, hicmp⟩
    simp only [hbyte] at htypeHi htypeLo hproto hicmp
    exact hother ⟨htypeHi, htypeLo, hproto, hicmp⟩
  obtain ⟨u, hclassifyRun, hsettle, hu⟩ := classify_step_of_mine hclassify hmine
  rw [if_neg hnotEcho] at hsettle
  obtain ⟨v, hsettleRun, hstart, hv⟩ := settleStepReturnsToWait u hsettle
  obtain ⟨hucfg, -, -, -, -, -, -, -, -, hutxq, hutrace⟩ := hu.fields
  obtain ⟨-, -, -, -, -, -, -, hind, -, htxq, htrace⟩ := hv.fields
  refine ⟨v, (run_of_step 4 hstep).trans ((run_add 2 2 hclassifyRun).trans hsettleRun), hstart, ?_, ?_, ?_⟩
  · simp only [hind, hucfg, hframe.cfg]
  · simp only [htxq, hutxq, hframe.txq]
  · simp only [htrace, hutrace, hucfg, hframe.trace, hframe.cfg, List.append_assoc, List.cons_append, List.nil_append]

/-! ## A frame sent -/

theorem wordByte_frameWord (s : State) (k : Nat) {j : Nat} (hj : j < 4) :
    wordByte (s.frameWord k) j = s.frameByte (4 * k + j) := by
  rw [← wordBytes_getD_eq_wordByte _ hj, State.frameWord, wordByte_wordOfBytes]
  match j, hj with
  | 0, _ | 1, _ | 2, _ | 3, _ => rfl

/-- The bytes sent of a frame are those of the buffer (44_transmitter.md R163). -/
theorem streamByte_map_frameWord {s : State} {n a : Nat} (hlen : s.rxLen.toNat = 4 * n) (ha : a < 4 * n) :
    streamByte ((List.range n).map s.frameWord) a = s.readByte a := by
  have hk : a / 4 < n := by omega
  have hword : ((List.range n).map s.frameWord).getD (a / 4) 0 = s.frameWord (a / 4) := by
    rw [List.getD_eq_getElem _ _ (by simpa using hk), List.getElem_map, List.getElem_range]
  rw [streamByte, hword, wordByte_frameWord s _ (by omega), Nat.div_add_mod, State.frameByte, if_pos (by omega)]

/-- The sum of a mapped range, the two bytes at an even place taken as one word. -/
theorem wordSum_map_range_at (f : Nat → Byte) {p n : Nat} (heven : p % 2 = 0) (hn : p + 2 ≤ n) :
    wordSum ((List.range n).map f) = wordSum ((List.range p).map f) + (be16 (f p) (f (p + 1))).toNat +
      wordSum ((List.range (n - p - 2)).map fun k => f (p + 2 + k)) := by
  rw [map_range_split f p n hn, wordSum_append _ _ (by simp; omega), wordSum_append _ _ (by simpa using heven)]
  rfl

/-- Bytes that hold, at an even place, the sum of themselves with that place zeroed sum to 0 (40_checksum.md R103). -/
theorem checksum_map_range_of_field {f : Nat → Byte} {p n : Nat} (heven : p % 2 = 0) (hn : p + 2 ≤ n)
    (hfield : f p ++ f (p + 1) = checksum ((List.range n).map fun k => if k = p ∨ k = p + 1 then 0 else f k)) :
    checksum ((List.range n).map f) = 0 := by
  apply checksum_completes (d := (List.range n).map fun k => if k = p ∨ k = p + 1 then 0 else f k)
  have hbefore : (List.range p).map (fun k => if k = p ∨ k = p + 1 then 0 else f k) = (List.range p).map f :=
    List.map_congr_left fun k hk => if_neg (by have := List.mem_range.1 hk; omega)
  have hafter : (fun k => if p + 2 + k = p ∨ p + 2 + k = p + 1 then 0 else f (p + 2 + k)) = fun k => f (p + 2 + k) :=
    funext fun k => if_neg (by omega)
  rw [← hfield, wordSum_map_range_at f heven hn, wordSum_map_range_at _ heven hn, hbefore, hafter, if_pos (.inl rfl),
    if_pos (.inr rfl)]
  rw [show (be16 0 0).toNat = 0 from rfl]
  exact Nat.add_right_comm _ _ _

/-- TRANSMIT's step on a frame of as many words as its length word announces sends them all (44_transmitter.md R160 to R164). -/
theorem transmit_step_of_frame {s : State} {n : Nat} (hs : AtStart .transmit s) (hlen : s.rxLen.toNat = 4 * n)
    (hfits : n ≤ 32) (hannounced : (payloadWords s.bitLen).toNat = n) :
    ∃ t, step s = .next t ∧ AtStart .settle t ∧ t.cfg = s.cfg ∧
      t.txq = s.txq ++ s.bitLen :: (List.range n).map s.frameWord ∧
      t.trace = s.trace ++ .txAnnounce s.bitLen :: ((List.range n).map s.frameWord).map .txPush := by
  have hcount : ceilDiv s.rxLen.toNat 4 = n := by rw [ceilDiv]; omega
  obtain ⟨hfault, -⟩ := transmit_of_count_eq (hcount.trans hannounced.symm)
  obtain ⟨hstep, -, hnext⟩ := step_of_single_op hs rfl (by decide) (exec_xmit_of_inside (s := s) (by omega))
  obtain ⟨hrun, hstate, -⟩ := hs
  obtain ⟨hcfg, -, -, -, -, -, -, -, -, htxq, htrace⟩ := (sameEngine_retire s .xmit (transmit s)).fields
  rw [State.loopNext, (transmit_kept s).state, hstate] at hnext
  refine ⟨_, hstep, hnext ((halted_congr hfault).trans hrun), hcfg.trans (transmit_kept s).cfg, ?_, ?_⟩
  · rw [htxq, transmit_update, hcount]
  · rw [htrace, transmit_update, hcount, List.map_map]
    rfl

/-! ## An Echo Request -/

/-- What the steps up to PROCESS leave in `v` of an Echo Request queued in `s`: the reply in the buffer, none of it sent (46_control_loop.md R198, 43_mutator.md R149). -/
structure ReplyMade (s : State) (len : Word) (ws : List Word) (v : State) : Prop where
  cfg     : v.cfg = s.cfg
  bitLen  : v.bitLen = len
  rxLen   : v.rxLen.toNat = 4 * ws.length
  txq     : v.txq = s.txq
  trace   : v.trace = s.trace ++ .rxReady true :: .rxPop len :: ws.map .rxPop ++ [.setIndicator s.cfg.statusFrameRx]
  header  : v.readByte 26 ++ v.readByte 27 =
    checksum ((List.range 20).map fun k => if k = 10 ∨ k = 11 then 0 else v.readByte (16 + k))
  message : v.readByte 38 ++ v.readByte 39 =
    checksum ((List.range (4 * ws.length - 36)).map fun k => if k = 2 ∨ k = 3 then 0 else v.readByte (36 + k))
  bytes   : ∀ a, a < 4 * ws.length → a ≠ 26 → a ≠ 27 → a ≠ 38 → a ≠ 39 → v.readByte a =
    if 2 ≤ a ∧ a < 8 then streamByte ws (a + 6) else if 8 ≤ a ∧ a < 14 then streamByte ws (a - 6)
    else if 28 ≤ a ∧ a < 32 then streamByte ws (a + 4) else if 32 ≤ a ∧ a < 36 then streamByte ws (a - 4)
    else if a = 36 then 0 else streamByte ws a

/-- From CLASSIFY, an Echo Request that fits the buffer is turned into its reply. -/
theorem reply_of_echoRequest {s t : State} {len : Word} {ws : List Word} (hframe : FrameReceived s len ws t)
    (hclassify : AtStart .classify t) (hlo : 36 ≤ 4 * ws.length) (hhi : 4 * ws.length ≤ 128)
    (hecho : t.frameClass = .echoRequest) :
    ∃ v, Host.Core.run Sys2Proof.core 7 t = .next v ∧ AtStart .transmit v ∧ ReplyMade s len ws v := by
  obtain ⟨u, hclassifyRun, hprocess, hu⟩ := classify_step_of_mine hclassify (by rw [hecho]; nofun)
  rw [if_pos hecho] at hprocess
  obtain ⟨hucfg, -, hubitLen, hurxLen, -, -, -, -, -, hutxq, hutrace⟩ := hu.fields
  have hlen : u.rxLen.toNat = 4 * ws.length := by
    rw [hurxLen]
    exact hframe.rxLen.trans (Nat.min_eq_left hhi)
  have hread : ∀ a < 4 * ws.length, u.readByte a = streamByte ws a := by
    intro a ha
    have hsame : u.readByte a = t.readByte a := hu.readByte_eq a
    rw [hsame, hframe.bytes, if_pos (by omega)]
  obtain ⟨v, hprocessRun, htransmit, hv, hheader, hcsum, hmessage, hbytes⟩ :=
    processStepMakesTheReply u hprocess (by omega) (by omega)
  obtain ⟨hvcfg, -, hvbitLen, hvrxLen, -, -, -, -, -, hvtxq, hvtrace⟩ := hv.fields
  refine ⟨v, (run_add 2 5 hclassifyRun).trans hprocessRun, htransmit, ?_, ?_, ?_, ?_, ?_, hheader, ?_, ?_⟩
  · rw [hvcfg, hucfg, hframe.cfg]
  · rw [hvbitLen, hubitLen, hframe.bitLen]
  · rw [hvrxLen, hlen]
  · rw [hvtxq, hutxq, hframe.txq]
  · rw [hvtrace, hutrace, hframe.trace, hframe.cfg]
  · rw [hmessage, hcsum, hlen]
  · intro a ha h26 h27 h38 h39
    rw [hbytes a h26 h27 h38 h39]
    split_ifs
    · exact hread _ (by omega)
    · exact hread _ (by omega)
    · exact hread _ (by omega)
    · exact hread _ (by omega)
    · rfl
    · exact hread a ha

/-- Settles O49: the reply made in the buffer is sent word for word, and each of its checksum fields completes the range around it. -/
theorem echoRequestIsAnsweredByItsReply : Obligations.EchoRequestIsAnsweredByItsReply := by
  intro s len ws rest hs hready hqueue hwords hfits hlong haddressed htypeHi htypeLo hproto hicmp
  obtain ⟨t, hstep, hframe, hclassify⟩ := wait_step_of_frame_kept hs hready hqueue hwords (by omega)
  have hread : ∀ a, a < 4 * ws.length → t.readByte a = streamByte ws a := fun a ha => by
    rw [hframe.bytes, if_pos (by omega)]
  have hecho : t.frameClass = .echoRequest := by
    rw [frameClass_eq_echoRequest_iff]
    refine ⟨fun i hi => ?_, ⟨?_, ?_⟩, ?_, ?_⟩
    · rw [hread _ (by omega), hframe.cfg, haddressed i hi]
    · rw [hread _ (by omega), htypeHi]
    · rw [hread _ (by omega), htypeLo]
    · rw [hread _ (by omega), hproto]
    · rw [hframe.bytes, ← hicmp]
      exact if_congr (by omega) rfl rfl
  obtain ⟨v, hreplyRun, htransmit, hreply⟩ := reply_of_echoRequest hframe hclassify hlong (by omega) hecho
  obtain ⟨x, hxmit, hsettle, hxcfg, hxtxq, hxtrace⟩ := transmit_step_of_frame htransmit hreply.rxLen (by omega)
    (by rw [hreply.bitLen, payloadWords_toNat, hwords])
  obtain ⟨y, hsettleRun, hstart, hy⟩ := settleStepReturnsToWait x hsettle
  obtain ⟨-, -, -, -, -, -, -, hind, -, htxq, htrace⟩ := hy.fields
  have hsent : ∀ a, a < 4 * ws.length →
      streamByte ((List.range ws.length).map v.frameWord) a = v.readByte a := fun a ha =>
    streamByte_map_frameWord hreply.rxLen ha
  refine ⟨y, (List.range ws.length).map v.frameWord, ?_, hstart, ?_, ?_, ?_, by simp, ?_, ?_, ?_⟩
  · exact (run_of_step 10 hstep).trans ((run_add 7 3 hreplyRun).trans ((run_of_step 2 hxmit).trans hsettleRun))
  · rw [hind, hxcfg, hreply.cfg]
  · rw [htxq, hxtxq, hreply.txq, hreply.bitLen]
  · simp only [htrace, hxtrace, hxcfg, hreply.trace, hreply.cfg, hreply.bitLen, List.append_assoc, List.cons_append,
      List.nil_append]
  · intro a ha h26 h27 h38 h39
    rw [hsent a ha, hreply.bytes a ha h26 h27 h38 h39]
  · rw [List.map_congr_left (g := fun k => v.readByte (16 + k)) fun k hk => hsent _ (by
      have := List.mem_range.1 hk; omega)]
    exact checksum_map_range_of_field (p := 10) (by decide) (by decide) hreply.header
  · intro hfield
    rw [List.map_congr_left (g := fun k => v.readByte (36 + k)) fun k hk => hsent _ (by
      have := List.mem_range.1 hk; omega)]
    exact checksum_map_range_of_field (p := 2) (by decide) (by omega) hreply.message

end Sys2Proof.Machine
end

section
/-! PROOFS. The statements about the faults (60_exceptions.md): which operation raises which (R212), that a raised fault halts the engine (R213), and that RX_UNDERFLOW stays clear while the environment keeps its duties (R177, R212). -/

namespace Sys2Proof.Machine

/-! ## While the duties are kept -/

/-- What the environment appends next is whole frames (45_interface.md R177 (3)). -/
theorem DutiesKept.wholeFrames_arrivingWords {s : State} (h : DutiesKept s) : WholeFrames (arrivingWords s.arrivals) := by
  cases hmoves : s.arrivals with
  | nil => exact .nil
  | cons m ms => exact h.arriving m (hmoves ▸ List.mem_cons_self)

/-- No Control Loop state issues RXPOP (46_control_loop.md R190). -/
theorem ne_rxpop_of_mem_loopOps {q : LoopState} {i : Instr} (hi : i ∈ loopOps q) : i ≠ .rxpop := by
  rintro rfl
  revert hi
  cases q <;> decide

/-- An operation of the Control Loop takes nothing or one whole frame, and finds no queue empty. -/
theorem exec_of_duties {q : LoopState} {i : Instr} {s u : State} (h : DutiesKept s) (hi : i ∈ loopOps q)
    (hu : exec i s = .next u) : WholeFrames u.rxq ∧ u.fault.rxUnderflow = s.fault.rxUnderflow := by
  by_cases hrecv : i = .recv
  · subst hrecv
    cases next_inj hu
    obtain ⟨hframes, hfault⟩ := receive_of_duties h
    exact ⟨hframes, congrArg _ hfault⟩
  · obtain ⟨hrxq, hunderflow⟩ := exec_keeps_rxq hu hrecv (ne_rxpop_of_mem_loopOps hi)
    exact ⟨hrxq ▸ h.queue, hunderflow⟩

/-- A step of the Control Loop leaves whole frames queued and RX_UNDERFLOW as it was. -/
theorem step_of_duties {s t : State} (hissues : IssuesLoop s) (h : DutiesKept s) (ht : step s = .next t) :
    WholeFrames t.rxq ∧ t.fault.rxUnderflow = s.fault.rxUnderflow := by
  obtain ⟨i, rest, u, hi, -, hu, rfl⟩ := loop_step hissues ht
  obtain ⟨hframes, hunderflow⟩ := exec_of_duties h hi hu
  rw [retire_rxq, retire_fault, (exec_kept hu).arrivals]
  exact ⟨hframes.append h.wholeFrames_arrivingWords, hunderflow⟩

/-- Every step takes one move of the environment, which presents `rxReady` over the queue it leaves (20_memory.md R62). -/
theorem step_environment {s t : State} (ht : step s = .next t) :
    t.arrivals = s.arrivals.tail ∧ t.rxReady = presentedReady t.rxq s.arrivals := by
  obtain ⟨i, u, -, -, hu, rfl⟩ := step_next ht
  rw [retire_eq, ← (exec_kept hu).arrivals]
  exact ⟨rfl, rfl⟩

/-- Settles O58: no operation of the loop finds the queue empty, and the environment's move appends whole frames to the whole frames left. -/
theorem noUnderflowWhileDutiesAreKept : Obligations.NoUnderflowWhileDutiesAreKept := by
  intro s t hissues h ht
  obtain ⟨hframes, hunderflow⟩ := step_of_duties hissues h ht
  obtain ⟨harrivals, -⟩ := step_environment ht
  refine ⟨hunderflow, fun hover => ⟨hframes, hover.ready, fun m hm => ?_⟩⟩
  rw [harrivals] at hm
  exact h.arriving m (List.mem_of_mem_tail hm)

/-! ## A run that keeps the duties -/

theorem exists_step_of_run_succ {k : Nat} {s t : State} (h : Host.Core.run Sys2Proof.core (k + 1) s = .next t) :
    ∃ u, step s = .next u ∧ Host.Core.run Sys2Proof.core k u = .next t := by
  simp only [Host.Core.run] at h
  split at h
  · rename_i u hu
    exact ⟨u, hu, h⟩
  · cases h
  · cases h

/-- An environment with no move left keeps its duties over a step of the Control Loop: it presents true exactly while something is queued, and what is queued is whole frames (log 4). -/
theorem dutiesOver_of_no_arrivals {s t : State} (hissues : IssuesLoop s) (h : DutiesKept s) (hnone : s.arrivals = [])
    (ht : step s = .next t) : DutiesOver s t := by
  obtain ⟨hframes, -⟩ := step_of_duties hissues h ht
  obtain ⟨-, hready⟩ := step_environment ht
  have hpresented : t.rxReady = true ↔ t.rxq ≠ [] := by
    rw [hready, hnone, presentedReady, Bool.not_eq_true', List.isEmpty_eq_false_iff]
  refine ⟨fun hr => hframes.head (hpresented.1 hr), fun hr hrxq => hpresented.2 ?_⟩
  rw [hrxq]
  exact List.append_ne_nil_of_left_ne_nil (h.ready hr).ne_nil _

/-- Settles O59: both halves by induction on the steps, each step keeping the loop's invariant and the duties (O57, O58). -/
theorem noUnderflowInARunThatKeepsTheDuties : Obligations.NoUnderflowInARunThatKeepsTheDuties := by
  constructor
  · intro k
    induction k with
    | zero =>
      intro s t _ h _ hrun
      cases next_inj hrun
      exact ⟨rfl, h⟩
    | succ k ih =>
      intro s t hinv h henv hrun
      obtain ⟨u, hu, hrest⟩ := exists_step_of_run_succ hrun
      obtain ⟨hover, henvRest⟩ := henv u hu
      obtain ⟨hunderflow, hkeeps⟩ := noUnderflowWhileDutiesAreKept s u hinv.issues h hu
      obtain ⟨hlater, hend⟩ := ih u t (everyStepKeepsLoopInv s u hinv hu) (hkeeps hover) henvRest hrest
      exact ⟨hlater.trans hunderflow, hend⟩
  · intro k
    induction k with
    | zero => exact fun _ _ _ _ => trivial
    | succ k ih =>
      intro s hinv h hnone t ht
      have hover := dutiesOver_of_no_arrivals hinv.issues h hnone ht
      obtain ⟨-, hkeeps⟩ := noUnderflowWhileDutiesAreKept s t hinv.issues h ht
      obtain ⟨harrivals, -⟩ := step_environment ht
      exact ⟨hover, ih t (everyStepKeepsLoopInv s t hinv ht) (hkeeps hover) (by rw [harrivals, hnone, List.tail_nil])⟩

/-! ## A raised fault halts the engine -/

/-- Settles O50: what follows an operation that raised is the environment's move alone, and a halted engine takes no step. -/
theorem aRaisedFaultHaltsTheEngine : Obligations.ARaisedFaultHaltsTheEngine := by
  refine ⟨fun s t ht hhalted => ?_, fun s hhalted => if_pos hhalted⟩
  obtain ⟨i, u, -, -, hu, rfl⟩ := step_next ht
  rw [(sameEngine_retire s i u).halted_eq] at hhalted
  rw [retire_halted s i hhalted]
  exact ⟨(exec_kept hu).state, (exec_kept hu).pending⟩

/-! ## Which operation raises which fault -/

theorem popWord_final_fault (s : State) :
    s.popWord.final.fault = if s.rxq = [] then s.fault.add .rxUnderflow else s.fault := by
  cases hqueue : s.rxq with
  | nil => rw [popWord_nil hqueue, if_pos rfl]; rfl
  | cons x q => rw [popWord_cons hqueue, if_neg (List.cons_ne_nil x q)]; rfl

/-- RECV raises where something is presented and the queue runs out, at the length word or after it (41_receiver.md R110, 45_interface.md R172). -/
theorem receive_fault (s : State) : (receive s).fault =
    if s.rxReady = true ∧ s.rxq.length < 1 + (payloadWords (s.rxq.headD 0)).toNat then s.fault.add .rxUnderflow
    else s.fault := by
  rcases receive_cases s with hready | ⟨hready, hqueue⟩ | ⟨len, ws, hready, hqueue, hshort⟩ |
    ⟨len, ws, rest, hready, hqueue, hwhole⟩
  · rw [receive_none hready, if_neg (by simp [hready])]
  · rw [receive_empty hready hqueue, if_pos ⟨hready, by rw [hqueue, List.length_nil]; omega⟩]
  · obtain ⟨m, hreceive, -, -⟩ := receive_short len ws hready hqueue hshort
    rw [hreceive, if_pos ⟨hready, by rw [hqueue, List.length_cons, List.headD_cons]; omega⟩]
  · obtain ⟨-, -, -, hfault⟩ := receive_frame_fields hready hqueue hwhole
    have henough : ¬ s.rxq.length < 1 + (payloadWords (s.rxq.headD 0)).toNat := by
      rw [hqueue, List.length_cons, List.length_append, List.headD_cons]
      omega
    rw [hfault, if_neg fun hc => henough hc.2]

theorem exec_icmpcsum_fault {s u : State} (hu : exec .icmpcsum s = .next u) :
    u.fault = if s.rxLen.toNat < 36 then s.fault.add (.icmpShort s.rxLen) else s.fault := by
  rcases cases_of_exec_icmpcsum hu with ⟨hshort, rfl⟩ | ⟨hlong, -, rfl⟩
  · rw [if_pos hshort, State.raise_fault]
  · rw [if_neg (Nat.not_lt.2 hlong), refreshChecksum_eq]

/-- XMIT raises exactly where the words the receive length needs are not as many as the length word announces (44_transmitter.md R164). -/
theorem transmit_fault (s : State) : (transmit s).fault =
    if ceilDiv s.rxLen.toNat 4 = (payloadWords s.bitLen).toNat then s.fault
    else s.fault.add (.txMismatch (payloadWords s.bitLen) (BitVec.ofNat 28 (ceilDiv s.rxLen.toNat 4))) := by
  by_cases hcount : ceilDiv s.rxLen.toNat 4 = (payloadWords s.bitLen).toNat
  · obtain ⟨hkept, -⟩ := transmit_of_count_eq hcount
    rw [if_pos hcount, hkept]
  · rw [if_neg hcount, transmit_fault_of_count_ne hcount]

/-- The operations that can raise a fault (60_exceptions.md R212). -/
def raisingOps : List Instr := [.rxpop, .recv, .icmpcsum, .xmit]

theorem exec_keeps_fault {i : Instr} {s u : State} (hi : i ∉ raisingOps) (hu : exec i s = .next u) :
    u.fault = s.fault := by
  cases i with
  | rxpop | recv | icmpcsum | xmit => exact absurd (by decide) hi
  | csum off len =>
    obtain ⟨-, rfl⟩ := eq_sumRange_of_exec_csum hu
    rfl
  | swapmac | swapip => cases next_inj hu; rw [swapRange_eq]
  | ipcsum => cases next_inj hu; rw [refreshChecksum_eq]
  | rxrdy | txann | txpush | setind _ | hold | classify | settype => cases next_inj hu; rfl

/-- Settles O51: each raising operation's flags in one equation, the word counts exact in their bits; the other operations write no flag. -/
theorem eachFaultIsRaisedByItsOperation : Obligations.EachFaultIsRaisedByItsOperation := by
  refine ⟨fun s t ht => ?_, fun s t ht => ?_, fun s t ht => exec_icmpcsum_fault ht, fun s t ht => ?_,
    fun i s t hi ht => exec_keeps_fault hi ht⟩
  · cases next_inj ht
    exact popWord_final_fault s
  · cases next_inj ht
    rw [← payloadWords_toNat]
    exact receive_fault s
  · obtain ⟨-, rfl⟩ := eq_transmit_of_exec_xmit ht
    rw [transmit_fault, payloadWords_toNat, payloadWords_eq]
    rfl

end Sys2Proof.Machine
end

section
/-! PROOFS. The statement about the indicator code after reset (70_reset_and_hazards.md): the Control Loop never writes STATUS_IDLE_WAIT (R241). -/

namespace Sys2Proof.Machine

/-- From `s` to `t` the indicator was not written and the trace gained no indicator event. -/
def NoIndicatorAction (s t : State) : Prop :=
  t.ind = s.ind ∧ ∃ es, t.trace = s.trace ++ es ∧ ∀ c, .setIndicator c ∉ es

theorem NoIndicatorAction.of_trace_eq {s t : State} (hind : t.ind = s.ind) (htrace : t.trace = s.trace) :
    NoIndicatorAction s t :=
  ⟨hind, [], by rw [htrace, List.append_nil], fun _ => List.not_mem_nil⟩

/-- RECV's events are a poll and pops (41_receiver.md R110). -/
theorem receive_noIndicatorAction (s : State) : NoIndicatorAction s (receive s) := by
  refine ⟨receive_ind s, ?_⟩
  rcases receive_cases s with hready | ⟨hready, hqueue⟩ | ⟨len, ws, hready, hqueue, hshort⟩ |
    ⟨len, ws, rest, hready, hqueue, hwhole⟩
  · rw [receive_none hready]
    exact ⟨_, rfl, by simp⟩
  · rw [receive_empty hready hqueue]
    exact ⟨_, rfl, by simp⟩
  · obtain ⟨m, hreceive, -, -⟩ := receive_short len ws hready hqueue hshort
    rw [hreceive]
    exact ⟨_, rfl, by simp⟩
  · obtain ⟨m, hreceive, -, -⟩ := receive_frame len ws rest hready hqueue hwhole
    rw [hreceive]
    exact ⟨_, rfl, by simp⟩

/-- XMIT's events are an announcement and pushes (44_transmitter.md R160). -/
theorem transmit_noIndicatorAction (s : State) : NoIndicatorAction s (transmit s) := by
  rw [transmit_update]
  exact ⟨rfl, _, rfl, by simp⟩

theorem popWord_final_noIndicatorAction (s : State) : NoIndicatorAction s s.popWord.final := by
  cases hqueue : s.rxq with
  | nil =>
    rw [popWord_nil hqueue]
    exact .of_trace_eq rfl rfl
  | cons x q =>
    rw [popWord_cons hqueue]
    exact ⟨rfl, [.rxPop x], rfl, by simp⟩

/-- SETIND is the one operation that writes `ind` (45_interface.md R175). -/
theorem exec_noIndicatorAction {i : Instr} {s u : State} (hi : ∀ sel, i ≠ .setind sel) (hu : exec i s = .next u) :
    NoIndicatorAction s u := by
  cases i with
  | setind sel => exact absurd rfl (hi sel)
  | rxpop => cases next_inj hu; exact popWord_final_noIndicatorAction s
  | recv => cases next_inj hu; exact receive_noIndicatorAction s
  | xmit =>
    obtain ⟨-, rfl⟩ := eq_transmit_of_exec_xmit hu
    exact transmit_noIndicatorAction s
  | csum off len =>
    obtain ⟨-, rfl⟩ := eq_sumRange_of_exec_csum hu
    exact .of_trace_eq rfl rfl
  | icmpcsum =>
    rcases cases_of_exec_icmpcsum hu with ⟨-, rfl⟩ | ⟨-, -, rfl⟩
    · exact .of_trace_eq rfl rfl
    · rw [refreshChecksum_eq]
      exact .of_trace_eq rfl rfl
  | swapmac | swapip => cases next_inj hu; rw [swapRange_eq]; exact .of_trace_eq rfl rfl
  | ipcsum => cases next_inj hu; rw [refreshChecksum_eq]; exact .of_trace_eq rfl rfl
  | classify | settype => cases next_inj hu; exact .of_trace_eq rfl rfl
  | hold =>
    rw [exec_hold] at hu
    cases next_inj hu
    exact ⟨rfl, _, rfl, by simp⟩
  | rxrdy | txann | txpush => cases next_inj hu; exact ⟨rfl, _, rfl, by simp⟩

/-- The selectors the Control Loop's SETINDs name: CLASSIFY's and SETTLE's (46_control_loop.md R192, R195). -/
theorem selector_of_setind_mem_loopOps {q : LoopState} {sel : Selector} (h : .setind sel ∈ loopOps q) :
    sel = .frameRx ∨ sel = .idleDone := by
  revert h
  cases q <;> cases sel <;> decide

@[simp] theorem retire_ind (s : State) (i : Instr) (t : State) : (retire s i t).ind = t.ind := by rw [retire_eq]

/-- Settles O45: only SETIND writes the indicator or reports it, and the loop's SETINDs name the other two codes. -/
theorem loopWritesOnlyTheOtherTwoCodes : Obligations.LoopWritesOnlyTheOtherTwoCodes := by
  intro s t hissues ht
  obtain ⟨i, rest, u, hi, -, hu, rfl⟩ := loop_step hissues ht
  rw [retire_ind, retire_trace]
  by_cases hset : ∃ sel, i = .setind sel
  · obtain ⟨sel, rfl⟩ := hset
    have hcode : statusCode s.cfg sel = s.cfg.statusFrameRx ∨ statusCode s.cfg sel = s.cfg.statusIdleDone :=
      (selector_of_setind_mem_loopOps hi).imp (congrArg (statusCode s.cfg)) (congrArg (statusCode s.cfg))
    rw [exec_setind] at hu
    cases next_inj hu
    refine ⟨.inr hcode, [.setIndicator (statusCode s.cfg sel)], rfl, fun c hc => ?_⟩
    cases List.mem_singleton.1 hc
    exact hcode
  · obtain ⟨hind, es, htrace, hes⟩ := exec_noIndicatorAction (not_exists.1 hset) hu
    exact ⟨.inl hind, es, htrace, fun c hc => absurd hc (hes c)⟩

end Sys2Proof.Machine
end
